-- ==== Sys2Proof/Word.lean ====
section
/-! DEFINITION. The word types of RSENC (00_scope.md R9, R10): a host register and a command word are 32 bits, a GF(256)
element and a codeword are 8 bits, and every value is unsigned. -/

namespace Sys2Proof

/-- A host-window register or a command word: 32 bits (R9). -/
abbrev Word := BitVec 32

/-- A GF(256) element or a codeword, "an 8-bit byte" (R9, R14). -/
abbrev Byte := BitVec 8

/-- `zext_32` of a byte (R10): the high 24 bits are 0. -/
def zext32 (x : Byte) : Word := x.setWidth 32

end Sys2Proof
end

