-- ==== Sys2Proof/Syntax.lean ====
section
/-! DEFINITION. The commands of RSENC command set version 1 (30_encoding.md R76): one constructor per row of
spec/opcode_table.json. Buffer indices, widths, degrees and register-file indices are unsigned integers (R75);
GF(256) elements and data bytes are bytes. -/

namespace Sys2Proof

/-- One command. The operands that are not in the command word (the value of BB_APPEND, the index of BB_READ) are in the
register ARG (R75). -/
inductive Instr where
  /-- NOP (43_system.md R181). -/
  | nop
  /-- ST_CLR (R182). -/
  | stClr
  /-- BB_CLEAR bB (40_bitbuffer.md R101). -/
  | bbClear (b : Nat)
  /-- BB_APPEND bB, W (R102); the value is ARG. -/
  | bbAppend (b w : Nat)
  /-- BB_APPENDBUF bB, bS (R103). -/
  | bbAppendBuf (b src : Nat)
  /-- BB_CLONE bB, bS (R104). -/
  | bbClone (b src : Nat)
  /-- BB_LEN bB (R105). -/
  | bbLen (b : Nat)
  /-- BB_READ bB (R106); the index is ARG. -/
  | bbRead (b : Nat)
  /-- GF_MUL A, C (41_galois.md R132). -/
  | gfMul (a c : Byte)
  /-- RS_DIV C, the degree (42_reedsolomon.md R151). -/
  | rsDiv (n : Nat)
  /-- RS_CLR (R153). -/
  | rsClr
  /-- RS_FEED C, the data byte (R154). -/
  | rsFeed (d : Byte)
  /-- RS_RDREM C, the index (R156). -/
  | rsRdrem (j : Nat)
  /-- RS_RDDIV C, the index (R157). -/
  | rsRddiv (j : Nat)
  deriving DecidableEq, Repr

end Sys2Proof
end

