-- ==== Sys2Proof/WellFormed.lean ====
section
/-! DEFINITION. Well-formed commands: those whose operands fit the fields that carry them (30_encoding.md R73, R74). This is
about the encoding only: an operand that an instance refuses (B not below NB, W above 31, a degree of 0) is well formed and
raises when it is executed (R80). -/

namespace Sys2Proof

/-- A buffer index fits the 4-bit fields B and S (R73). -/
def bufferField (b : Nat) : Bool := b < 16

/-- An append width fits the 6-bit field W (R73). -/
def widthField (w : Nat) : Bool := w < 64

/-- A degree or an index fits the 8-bit field C (R74). -/
def byteField (n : Nat) : Bool := n < 256

/-- Every operand fits its field. -/
def Instr.wellFormed : Instr → Bool
  | .nop => true
  | .stClr => true
  | .bbClear b => bufferField b
  | .bbAppend b w => bufferField b && widthField w
  | .bbAppendBuf b src => bufferField b && bufferField src
  | .bbClone b src => bufferField b && bufferField src
  | .bbLen b => bufferField b
  | .bbRead b => bufferField b
  | .gfMul _ _ => true
  | .rsDiv n => byteField n
  | .rsClr => true
  | .rsFeed _ => true
  | .rsRdrem j => byteField j
  | .rsRddiv j => byteField j

end Sys2Proof
end

