-- ==== Sys2Proof/Decode.lean ====
section
/-! DEFINITION. Decoding and encoding of command words (30_encoding.md R70 to R80). -/

namespace Sys2Proof

/-! ### Fields (R71, R75) -/

/-- `OPC`, bits 31:24. -/
def fieldOpc (w : Word) : BitVec 8 := w.extractLsb' 24 8

/-- `B`, bits 23:20, as an unsigned integer. -/
def fieldB (w : Word) : Nat := (w.extractLsb' 20 4).toNat

/-- `S`, bits 19:16, as an unsigned integer. -/
def fieldS (w : Word) : Nat := (w.extractLsb' 16 4).toNat

/-- `W`, bits 13:8, as an unsigned integer. -/
def fieldW (w : Word) : Nat := (w.extractLsb' 8 6).toNat

/-- `A`, bits 15:8. -/
def fieldA (w : Word) : Byte := w.extractLsb' 8 8

/-- `C`, bits 7:0. -/
def fieldC (w : Word) : Byte := w.extractLsb' 0 8

/-! ### The opcode map (R76) -/

/-- The mnemonics of R76. -/
inductive Op where
  | nop | stClr | bbClear | bbAppend | bbAppendBuf | bbClone | bbLen | bbRead
  | gfMul | rsDiv | rsClr | rsFeed | rsRdrem | rsRddiv
  deriving DecidableEq, Repr

/-- One row of R76: a word `w` is the command `op` exactly when `w & mask = pattern` (`pattern` is the column "match"). -/
structure OpcodeRow where
  op : Op
  pattern : Word
  mask : Word
  deriving DecidableEq, Repr

/-- The opcode map, row by row. -/
def opcodeMap : List OpcodeRow :=
  [ ⟨.nop, 0x00000000, 0xFFFFFFFF⟩,
    ⟨.stClr, 0x01000000, 0xFFFFFFFF⟩,
    ⟨.bbClear, 0x10000000, 0xFF0FFFFF⟩,
    ⟨.bbAppend, 0x11000000, 0xFF0FC0FF⟩,
    ⟨.bbAppendBuf, 0x12000000, 0xFF00FFFF⟩,
    ⟨.bbClone, 0x13000000, 0xFF00FFFF⟩,
    ⟨.bbLen, 0x14000000, 0xFF0FFFFF⟩,
    ⟨.bbRead, 0x15000000, 0xFF0FFFFF⟩,
    ⟨.gfMul, 0x20000000, 0xFFFF0000⟩,
    ⟨.rsDiv, 0x30000000, 0xFFFFFF00⟩,
    ⟨.rsClr, 0x31000000, 0xFFFFFFFF⟩,
    ⟨.rsFeed, 0x32000000, 0xFFFFFF00⟩,
    ⟨.rsRdrem, 0x33000000, 0xFFFFFF00⟩,
    ⟨.rsRddiv, 0x34000000, 0xFFFFFF00⟩ ]

/-- `(w & mask) == match` (R78). -/
def OpcodeRow.accepts (r : OpcodeRow) (w : Word) : Bool := w &&& r.mask == r.pattern

/-- The mnemonic with its fields (R75, column "fields" of R76). -/
def Op.withFields (op : Op) (w : Word) : Instr :=
  match op with
  | .nop => .nop
  | .stClr => .stClr
  | .bbClear => .bbClear (fieldB w)
  | .bbAppend => .bbAppend (fieldB w) (fieldW w)
  | .bbAppendBuf => .bbAppendBuf (fieldB w) (fieldS w)
  | .bbClone => .bbClone (fieldB w) (fieldS w)
  | .bbLen => .bbLen (fieldB w)
  | .bbRead => .bbRead (fieldB w)
  | .gfMul => .gfMul (fieldA w) (fieldC w)
  | .rsDiv => .rsDiv (fieldC w).toNat
  | .rsClr => .rsClr
  | .rsFeed => .rsFeed (fieldC w)
  | .rsRdrem => .rsRdrem (fieldC w).toNat
  | .rsRddiv => .rsRddiv (fieldC w).toNat

/-! ### Decode (R78, R79) -/

/-- Why a word is illegal: the two bullets of R79. Both raise ILLEGAL_COMMAND. -/
inductive IllegalWord where
  /-- The OPC is one of the 242 values that R76 does not list. -/
  | reservedOpcode
  /-- The OPC is listed, and a reserved or unused bit of its row is set. -/
  | reservedBits
  deriving DecidableEq, Repr

/-- The decoder of R78, total on 32-bit words: the first row that accepts the word gives the command. -/
def decode (w : Word) : Except IllegalWord Instr :=
  match opcodeMap.find? fun r => r.accepts w with
  | some r => .ok (r.op.withFields w)
  | none =>
    if opcodeMap.any fun r => fieldOpc r.pattern == fieldOpc w then .error .reservedBits else .error .reservedOpcode

/-- The host's question: what the decoder reads from an instruction of `nbits` bits, numbered as spec/opcode_table.json
numbers them (every command is one 32-bit word, R70). -/
def decodeTableWord (nbits w : Nat) : Option Instr :=
  match decode (BitVec.ofNat 32 (w % 2 ^ nbits)) with
  | .ok i => some i
  | .error _ => none

/-! ### Encode (R72, R73, R74, and the column OPC of R76) -/

/-- Format N (R72): OPC, and bits 23:0 zero. -/
def formatN (opc : BitVec 8) : Word := opc ++ 0#24

/-- Format B (R73): OPC, B, S, two zero bits, W, eight zero bits. -/
def formatB (opc : BitVec 8) (b src w : Nat) : Word :=
  opc ++ BitVec.ofNat 4 b ++ BitVec.ofNat 4 src ++ 0#2 ++ BitVec.ofNat 6 w ++ 0#8

/-- Format G (R74): OPC, eight zero bits, A, C. -/
def formatG (opc : BitVec 8) (a c : Byte) : Word := opc ++ 0#8 ++ a ++ c

/-- The word of a well-formed command. -/
def encode : Instr → Word
  | .nop => formatN 0x00
  | .stClr => formatN 0x01
  | .bbClear b => formatB 0x10 b 0 0
  | .bbAppend b w => formatB 0x11 b 0 w
  | .bbAppendBuf b src => formatB 0x12 b src 0
  | .bbClone b src => formatB 0x13 b src 0
  | .bbLen b => formatB 0x14 b 0 0
  | .bbRead b => formatB 0x15 b 0 0
  | .gfMul a c => formatG 0x20 a c
  | .rsDiv n => formatG 0x30 0 (BitVec.ofNat 8 n)
  | .rsClr => formatN 0x31
  | .rsFeed d => formatG 0x32 0 d
  | .rsRdrem j => formatG 0x33 0 (BitVec.ofNat 8 j)
  | .rsRddiv j => formatG 0x34 0 (BitVec.ofNat 8 j)

end Sys2Proof
end

