-- ==== Sys2Proof/Config.lean ====
section
/-! DEFINITION. What is fixed for one RSENC instance (00_scope.md R8), and the values the spec leaves open
(93_implementation_defined.md U2). -/

namespace Sys2Proof.Config

/-- Multiplier construction (R8, R135): a 256×256 lookup, or the repeated-doubling loop. -/
inductive GfImpl where
  | table
  | bitserial
  deriving DecidableEq, Repr

/-- The implementation parameters of R8. They never change while the machine runs. -/
structure Params where
  /-- `NB`: number of bit buffers. -/
  nb : Nat
  /-- `BB_CAP`: capacity of each bit buffer, in bits. -/
  bbCap : Nat
  /-- `NMAX`: largest degree that RS_DIV accepts. -/
  nmax : Nat
  /-- `GF_IMPL`. -/
  gfImpl : GfImpl
  /-- `BASE`: host address of the register window. -/
  base : Nat
  deriving DecidableEq, Repr

/-- The legal ranges of R8. -/
abbrev Params.Legal (p : Params) : Prop :=
  (1 ≤ p.nb ∧ p.nb ≤ 16) ∧ (1 ≤ p.bbCap ∧ p.bbCap ≤ 2 ^ 31 - 1) ∧ (1 ≤ p.nmax ∧ p.nmax ≤ 255) ∧ p.base % 256 = 0

/-- The default instance of R8. `BASE` is OPEN there: 0 is this model's value (DESIGN CHOICE, notes/assumptions/1.md). -/
def Params.default : Params where
  nb := 4
  bbCap := 32768
  nmax := 30
  gfImpl := .table
  base := 0

/-- A free value: the contents of a `DIV` or `REM` entry that the spec calls unspecified (R28, R29, R151; U2). It has no
body, so no proof can see what it is; the argument is the count held in `State.freeCount` (notes/assumptions/3.md). -/
opaque freeByte : Nat → Byte

/-- `n` free values in a row, from count `start` on. -/
def freeBytes (start n : Nat) : List Byte :=
  (List.range n).map fun k => freeByte (start + k)

end Sys2Proof.Config
end

