-- ==== Sys2Proof/Machine/State.lean ====
section
/-! DEFINITION. The state of RSENC (10_state.md R20 to R39), the host accesses that drive it (20_memory.md R52 to R54,
70_reset_and_hazards.md R231, R250), and the reasons a step can stop. -/

namespace Sys2Proof.Machine

/-- The status codes of 60_exceptions.md R201 that RSENC produces; 6 to 15 are never produced. -/
inductive StatusCode where
  | ok
  | invalidArgument
  | indexOutOfRange
  | capacityExceeded
  | illegalCommand
  | notReady
  deriving DecidableEq, Repr

/-- One host access at the port: a load or a store of `width` bytes at the host address `addr`. Only `width = 4` at an
aligned address of the window is admitted (R52). -/
inductive Access where
  | write (addr width : Nat) (value : Word)
  | read (addr width : Nat)
  deriving DecidableEq, Repr

/-- What arrives at the block, in order: a host access, or the reset input asserted between two accesses (R230, R231). -/
inductive Event where
  | access (a : Access)
  | reset
  deriving DecidableEq, Repr

/-- Why the machine stops with a fault. -/
inductive Fault where
  /-- Raised by `performAccess` for a host address outside the 256-byte window at BASE (R50): an address that is not
  RSENC's. Safe: the model stops where the block sees no access at all. -/
  | outsideWindow
  deriving DecidableEq, Repr

/-- Why a step is refused. -/
inductive Refusal where
  /-- A command whose meaning is not written; no arm of `exec` answers with it. Safe. -/
  | notModelled (mnemonic : String)
  /-- Raised by `performAccess` for an access inside the window that is not 32 bits wide or not at a multiple of 4: "A model
  refuses such an access, with no step" (R52), and the run is stuck there (R250). Safe. -/
  | accessNotAdmitted
  deriving DecidableEq, Repr

/-- The state of the block, the parameters of the instance, and what the host has sent and read. -/
structure State where
  /-- The instance's parameters (00_scope.md R8): not state of the spec's (R21), never changed by a step. `CONFIG` and
  `CAPACITY` (R33, R34) are computed from them. -/
  params : Config.Params
  /-- `BUF[0..NB-1]` (R22): buffer `b` is the list of its `len` bits, bit 0 first; R25 allows no store beyond `len`. -/
  bufs : List (List Bool)
  /-- `DEG` (R27). -/
  deg : Byte
  /-- `DIV[0..NMAX-1]` (R28). -/
  div : List Byte
  /-- `REM[0..NMAX-1]` (R29). -/
  rem : List Byte
  /-- `ARG` (R30). -/
  arg : Word
  /-- `RESULT` (R31). -/
  result : Word
  /-- `STATUS` (R32). -/
  status : Word
  /-- The model's own fault mark (92_eei_decisions.md D7): some command has raised; nothing clears it. -/
  raised : Bool
  /-- The model's own count of free values used so far (notes/assumptions/3.md). -/
  freeCount : Nat
  /-- The rest of the host's list of accesses (R250), the next one first, with the resets between them. -/
  pending : List Event
  /-- The index of the next host access in the host's access list (R20). -/
  index : Nat
  /-- The values the `RD` accesses returned, in order (R250). -/
  reads : List Word
  deriving DecidableEq, Repr

/-- The state after reset (R38, R230) of the instance `p`. The spec leaves `DIV` and `REM` unspecified; the zeros are this
model's choice and no command can read them (DESIGN CHOICE, notes/assumptions/2.md). -/
def State.resetOf (p : Config.Params) : State where
  params := p
  bufs := List.replicate p.nb []
  deg := 0
  div := List.replicate p.nmax 0
  rem := List.replicate p.nmax 0
  arg := 0
  result := 0
  status := 0
  raised := false
  freeCount := 0
  pending := []
  index := 0
  reads := []

/-- The default instance right after reset, with no host access sent yet. -/
def State.reset : State := State.resetOf Config.Params.default

end Sys2Proof.Machine
end

