-- ==== Sys2Proof/Machine/Flags.lean ====
section
/-! DEFINITION. The fields of STATUS and how commands write them (10_state.md R32, R37; 60_exceptions.md R201, R203, R204). -/

namespace Sys2Proof.Machine

/-- The code numbers of R201. -/
def statusCodeBits (c : StatusCode) : BitVec 4 :=
  match c with
  | .ok => 0
  | .invalidArgument => 1
  | .indexOutOfRange => 2
  | .capacityExceeded => 3
  | .illegalCommand => 4
  | .notReady => 5

/-- `STATUS.CODE`, bits 3:0. -/
def statusCode (st : Word) : BitVec 4 := st.extractLsb' 0 4

/-- `STATUS.ERR`, bit 4. -/
def statusErr (st : Word) : Bool := st.getLsbD 4

/-- `STATUS.CODE <- c`; every other bit keeps its value. -/
def statusSetCode (st : Word) (c : StatusCode) : Word :=
  (st &&& 0xFFFFFFF0) ||| (statusCodeBits c).setWidth 32

/-- `STATUS.ERR <- e`; every other bit keeps its value. -/
def statusSetErr (st : Word) (e : Bool) : Word :=
  if e then st ||| 0x00000010 else st &&& 0xFFFFFFEF

end Sys2Proof.Machine
end

