-- ==== Sys2Proof/Machine/Ops.lean ====
section
/-! DEFINITION. The shared operations of the commands: the buffer bank, the register files, RESULT, and the two ways a
command ends (00_scope.md R13; 60_exceptions.md R203, R204). -/

namespace Sys2Proof.Machine

/-- What a command answers. -/
abbrev Result := Host.Outcome State Fault Refusal

/-! ### How a command ends -/

/-- The state a completing command leaves: `STATUS.CODE <- OK`, `ERR` unchanged (R204). -/
def State.completed (s : State) : State := { s with status := statusSetCode s.status .ok }

/-- The state that `raise E` leaves (R203): `STATUS.CODE <- code(E)`, `STATUS.ERR <- 1`, and nothing else of the spec's state.
The mark `raised` is the model's own (92_eei_decisions.md D7). -/
def State.raisedWith (s : State) (c : StatusCode) : State :=
  { s with status := statusSetErr (statusSetCode s.status c) true, raised := true }

/-- The command completes. -/
def complete (s : State) : Result := .next s.completed

/-- `raise E`: RSENC's only error mechanism. There is no trap entry and no trap return (R200, R209). -/
def raise (c : StatusCode) (s : State) : Result := .next (s.raisedWith c)

/-! ### The buffer bank (R22, R26) -/

/-- The content of buffer `b`; `BUF[b].len` is its length. -/
def State.buf (s : State) (b : Nat) : List Bool := s.bufs.getD b []

/-- Replace the content of buffer `b`, and of no other. -/
def State.setBuf (s : State) (b : Nat) (bits : List Bool) : State := { s with bufs := s.bufs.set b bits }

/-! ### The register files DIV and REM (R28, R29) -/

/-- Entry `j` of a register file. Every `j` that a command reads is below NMAX in the states a run reaches. -/
def fileGet (f : List Byte) (j : Nat) : Byte := f.getD j 0

/-- Write the entries from 0 on; the entries after them keep their values. -/
def fileSetPrefix (f new : List Byte) : List Byte := new ++ f.drop new.length

/-! ### RESULT (R31, R184) -/

/-- `RESULT <- v`. -/
def State.setResult (s : State) (v : Word) : State := { s with result := v }

end Sys2Proof.Machine
end

