-- ==== Sys2Proof/Machine/Operands.lean ====
section
/-! DEFINITION. Operand forms (30_encoding.md R75) and bit order (20_memory.md R56, R57). -/

namespace Sys2Proof.Machine

/-- A buffer index that the instance has: below NB (R80, R100). -/
def bufferIndexOk (s : State) (b : Nat) : Bool := b < s.params.nb

/-- ARG taken as an unsigned number in 0..2^32-1: the index of BB_READ (R75). -/
abbrev State.argIndex (s : State) : Nat := s.arg.toNat

/-- `(v >> W) = 0`: the value fits in `w` bits (R102). -/
def fitsIn (v : Word) (w : Nat) : Bool := v >>> w == 0

/-- The low `w` bits of `v`, most significant first: `v[w-1]` is first and `v[0]` last (R56). -/
def msbFirst (w : Nat) (v : Word) : List Bool := (List.range w).map fun k => v.getLsbD (w - 1 - k)

/-- Codeword `k` of a buffer as the host forms it: bits `8k` to `8k+7`, bit `8k` the most significant (R57). No command uses
it. Bits at or past the length are unspecified (R25): that a codeword which is not wholly below the length takes them as 0 is this
model's choice (DESIGN CHOICE, notes/assumptions/16.md). -/
def codeword (bits : List Bool) (k : Nat) : Byte :=
  (List.range 8).foldl (fun acc i => (acc <<< 1) ||| (if bits.getD (8 * k + i) false then 1 else 0)) 0

end Sys2Proof.Machine
end

