-- ==== Sys2Proof/Machine/BitBuffer.lean ====
section
/-! DEFINITION. The bit buffer commands (40_bitbuffer.md). Each check stands in the order of its rule's pseudocode (R205). -/

namespace Sys2Proof.Machine

/-- BB_CLEAR (R101). -/
def execBbClear (b : Nat) (s : State) : Result :=
  if !bufferIndexOk s b then raise .invalidArgument s
  else complete (s.setBuf b [])

/-- BB_APPEND (R102). -/
def execBbAppend (b w : Nat) (s : State) : Result :=
  if !bufferIndexOk s b then raise .invalidArgument s
  else if w > 31 then raise .invalidArgument s
  else if !fitsIn s.arg w then raise .invalidArgument s
  else if (s.buf b).length + w > s.params.bbCap then raise .capacityExceeded s
  else complete (s.setBuf b (s.buf b ++ msbFirst w s.arg))

/-- BB_APPENDBUF (R103). -/
def execBbAppendBuf (b src : Nat) (s : State) : Result :=
  if !bufferIndexOk s b || !bufferIndexOk s src then raise .invalidArgument s
  else if src = b then raise .invalidArgument s
  else if (s.buf b).length + (s.buf src).length > s.params.bbCap then raise .capacityExceeded s
  else complete (s.setBuf b (s.buf b ++ s.buf src))

/-- BB_CLONE (R104). -/
def execBbClone (b src : Nat) (s : State) : Result :=
  if !bufferIndexOk s b || !bufferIndexOk s src then raise .invalidArgument s
  else complete (s.setBuf b (s.buf src))

/-- BB_LEN (R105). -/
def execBbLen (b : Nat) (s : State) : Result :=
  if !bufferIndexOk s b then raise .invalidArgument s
  else complete (s.setResult (BitVec.ofNat 32 (s.buf b).length))

/-- BB_READ (R106). -/
def execBbRead (b : Nat) (s : State) : Result :=
  if !bufferIndexOk s b then raise .invalidArgument s
  else if s.argIndex ≥ (s.buf b).length then raise .indexOutOfRange s
  else complete (s.setResult (if (s.buf b).getD s.argIndex false then 1 else 0))

end Sys2Proof.Machine
end

