-- ==== Sys2Proof/Machine/Galois.lean ====
section
/-! DEFINITION. The GF(256) multiplier (41_galois.md): the repeated-doubling loop, the table built from it, and GF_MUL. -/

namespace Sys2Proof.Machine

/-- One turn of the loop of R131, for bit `i` of `y`, on the 9-bit working value `z`: double, reduce by 0x11D when the
doubling overflows bit 7, add `x` when `y[i]` is set. -/
def gfMulStep (x y : Byte) (z : BitVec 9) (i : Nat) : BitVec 9 :=
  let doubled := (z <<< 1) ^^^ (if z.getLsbD 7 then 0x11D#9 else 0#9)
  doubled ^^^ (if y.getLsbD i then x.setWidth 9 else 0#9)

/-- `gf_mul(x, y)` (R131): the loop from bit 7 of `y` down to bit 0. -/
def gfMul (x y : Byte) : Byte :=
  ([7, 6, 5, 4, 3, 2, 1, 0].foldl (gfMulStep x y) 0#9).setWidth 8

/-- The constant table `T[x][y] = gf_mul(x, y)` of R135; it is not state (R35). -/
def gfTable : List (List Byte) :=
  (List.range 256).map fun x => (List.range 256).map fun y => gfMul (BitVec.ofNat 8 x) (BitVec.ofNat 8 y)

/-- A lookup in the table. -/
def gfLookup (x y : Byte) : Byte := (gfTable.getD x.toNat []).getD y.toNat 0

/-- The multiplier of an instance, by its construction GF_IMPL (R8, R135). -/
def gfProduct (impl : Config.GfImpl) (x y : Byte) : Byte :=
  match impl with
  | .table => gfLookup x y
  | .bitserial => gfMul x y

/-- GF_MUL (R132). -/
def execGfMul (a c : Byte) (s : State) : Result :=
  complete (s.setResult (zext32 (gfProduct s.params.gfImpl a c)))

end Sys2Proof.Machine
end

