-- ==== Sys2Proof/Machine/ReedSolomon.lean ====
section
/-! DEFINITION. The Reed–Solomon remainder unit (42_reedsolomon.md). -/

namespace Sys2Proof.Machine

/-- One outer pass of R151: multiply the polynomial held in `t` by `(x + root)`. Entry `j + 1` is not yet updated when entry
`j` is. -/
def divisorPass (impl : Config.GfImpl) (n : Nat) (root : Byte) (t : List Byte) : List Byte :=
  (List.range n).map fun j =>
    if j + 1 < n then gfProduct impl (fileGet t j) root ^^^ fileGet t (j + 1) else gfProduct impl (fileGet t j) root

/-- `k` outer passes, the first with `root`, each next one with the next power of α = 2. -/
def divisorPasses (impl : Config.GfImpl) (n : Nat) : Nat → Byte → List Byte → List Byte
  | 0, _, t => t
  | k + 1, root, t => divisorPasses impl n k (gfProduct impl root 0x02) (divisorPass impl n root t)

/-- The `n` coefficients that RS_DIV builds (R151): `n` passes from the constant polynomial 1, held in position n-1
(90_conflicts.md C1). -/
def buildDivisor (impl : Config.GfImpl) (n : Nat) : List Byte :=
  divisorPasses impl n n 0x01 (List.replicate (n - 1) 0x00 ++ [0x01])

/-- RS_DIV (R151). The entries of DIV and REM from `n` on become unspecified: free values (notes/assumptions/3.md). -/
def execRsDiv (n : Nat) (s : State) : Result :=
  if n = 0 ∨ n > s.params.nmax then raise .invalidArgument s
  else
    let spare := s.params.nmax - n
    complete { s with
      div := buildDivisor s.params.gfImpl n ++ Config.freeBytes s.freeCount spare
      rem := List.replicate n 0x00 ++ Config.freeBytes (s.freeCount + spare) spare
      deg := BitVec.ofNat 8 n
      freeCount := s.freeCount + 2 * spare }

/-- RS_CLR (R153). -/
def execRsClr (s : State) : Result :=
  complete { s with rem := fileSetPrefix s.rem (List.replicate s.deg.toNat 0x00) }

/-- The remainder register after one byte `d` is fed (R154), `n = DEG` entries: shift one place toward the head, then combine
the fed-back byte through the divisor coefficients. -/
def feedRegister (impl : Config.GfImpl) (n : Nat) (div rem : List Byte) (d : Byte) : List Byte :=
  let factor := d ^^^ fileGet rem 0
  (List.range n).map fun j =>
    (if j + 1 < n then fileGet rem (j + 1) else 0x00) ^^^ gfProduct impl (fileGet div j) factor

/-- RS_FEED (R154). -/
def execRsFeed (d : Byte) (s : State) : Result :=
  if s.deg.toNat = 0 then raise .notReady s
  else complete { s with rem := fileSetPrefix s.rem (feedRegister s.params.gfImpl s.deg.toNat s.div s.rem d) }

/-- RS_RDREM (R156). -/
def execRsRdrem (j : Nat) (s : State) : Result :=
  if j ≥ s.deg.toNat then raise .indexOutOfRange s
  else complete (s.setResult (zext32 (fileGet s.rem j)))

/-- RS_RDDIV (R157). -/
def execRsRddiv (j : Nat) (s : State) : Result :=
  if j ≥ s.deg.toNat then raise .indexOutOfRange s
  else complete (s.setResult (zext32 (fileGet s.div j)))

end Sys2Proof.Machine
end

