-- ==== Sys2Proof/Machine/System.lean ====
section
/-! DEFINITION. The control commands (43_system.md R181, R182). -/

namespace Sys2Proof.Machine

/-- NOP (R181): `STATUS.CODE <- OK`, and nothing else. -/
def execNop (s : State) : Result := complete s

/-- ST_CLR (R182): `STATUS.ERR <- 0`, `STATUS.CODE <- OK`. The model's mark `raised` stays. -/
def execStClr (s : State) : Result := complete { s with status := statusSetErr s.status false }

end Sys2Proof.Machine
end

