-- ==== Sys2Proof/Machine/Dispatch.lean ====
section
/-! DEFINITION. One arm per command (43_system.md R180: "perform the pseudocode of c's rule"). -/

namespace Sys2Proof.Machine

def exec (i : Instr) (s : State) : Host.Outcome State Fault Refusal :=
  match i with
  | .nop => Sys2Proof.Machine.execNop s
  | .stClr => Sys2Proof.Machine.execStClr s
  | .bbClear b => Sys2Proof.Machine.execBbClear b s
  | .bbAppend b w => Sys2Proof.Machine.execBbAppend b w s
  | .bbAppendBuf b src => Sys2Proof.Machine.execBbAppendBuf b src s
  | .bbClone b src => Sys2Proof.Machine.execBbClone b src s
  | .bbLen b => Sys2Proof.Machine.execBbLen b s
  | .bbRead b => Sys2Proof.Machine.execBbRead b s
  | .gfMul a c => Sys2Proof.Machine.execGfMul a c s
  | .rsDiv n => Sys2Proof.Machine.execRsDiv n s
  | .rsClr => Sys2Proof.Machine.execRsClr s
  | .rsFeed d => Sys2Proof.Machine.execRsFeed d s
  | .rsRdrem j => Sys2Proof.Machine.execRsRdrem j s
  | .rsRddiv j => Sys2Proof.Machine.execRsRddiv j s

end Sys2Proof.Machine
end

