-- ==== Sys2Proof/Machine/Window.lean ====
section
/-! DEFINITION. The register window (20_memory.md R50 to R54): which accesses are admitted, what a read returns, and the two
constant registers. -/

namespace Sys2Proof.Machine

/-- The registers of the window (R51). -/
inductive WindowReg where
  | cmd | arg | result | status | config | capacity | reserved
  deriving DecidableEq, Repr

/-- The window map (R51): the register at a byte offset. -/
def windowReg (off : Nat) : WindowReg :=
  match off with
  | 0x00 => .cmd
  | 0x04 => .arg
  | 0x08 => .result
  | 0x0C => .status
  | 0x10 => .config
  | 0x14 => .capacity
  | _ => .reserved

/-- The bit `CONFIG.GF_IMPL`: 0 = TABLE, 1 = BITSERIAL (R33). -/
def gfImplBit (impl : Config.GfImpl) : BitVec 1 :=
  match impl with
  | .table => 0
  | .bitserial => 1

/-- `CONFIG` (R33): NB in 4:0, NMAX in 15:8, GF_IMPL in 16, the rest 0. -/
def configWord (p : Config.Params) : Word :=
  0#15 ++ gfImplBit p.gfImpl ++ BitVec.ofNat 8 p.nmax ++ 0#3 ++ BitVec.ofNat 5 p.nb

/-- `CAPACITY` (R34): equal to BB_CAP. -/
def capacityWord (p : Config.Params) : Word := BitVec.ofNat 32 p.bbCap

/-- The column "read returns" of R51. -/
def readWindow (off : Nat) (s : State) : Word :=
  match windowReg off with
  | .cmd => 0
  | .arg => s.arg
  | .result => s.result
  | .status => s.status
  | .config => configWord s.params
  | .capacity => capacityWord s.params
  | .reserved => 0

/-- Where an access falls (R50, R52). -/
inductive Place where
  /-- A 32-bit access at an offset that is a multiple of 4. -/
  | admitted (off : Nat)
  /-- Inside the window, with another width or offset. -/
  | notAdmitted
  /-- Not in the 256 bytes at BASE. -/
  | outside
  deriving DecidableEq, Repr

/-- The place of an access of `width` bytes at the host address `addr`. -/
def place (p : Config.Params) (addr width : Nat) : Place :=
  if addr < p.base ∨ p.base + 256 ≤ addr then .outside
  else if width = 4 ∧ (addr - p.base) % 4 = 0 then .admitted (addr - p.base)
  else .notAdmitted

end Sys2Proof.Machine
end

