-- ==== Sys2Proof/Machine/Execute.lean ====
section
/-! DEFINITION. What one host access, or one reset, does (20_memory.md R53, R54; 43_system.md R180; 70_reset_and_hazards.md
R230, R231). -/

namespace Sys2Proof.Machine

/-- `execute(w)` (R180): decode, then the command's rule; an illegal word raises ILLEGAL_COMMAND. -/
def executeWord (w : Word) (s : State) : Result :=
  match decode w with
  | .error _ => raise .illegalCommand s
  | .ok i => exec i s

/-- `MemWrite(off, 4, v)` (R51, R54). -/
def writeWindow (off : Nat) (v : Word) (s : State) : Result :=
  match windowReg off with
  | .cmd => executeWord v s
  | .arg => .next { s with arg := v }
  | .result => .next s
  | .status => .next s
  | .config => .next s
  | .capacity => .next s
  | .reserved => .next s

/-- One host access. An admitted one advances the access index by one (R20) and is performed whole before the next (R59); a
read's value goes to the host's list (R250) and changes nothing else (R53). -/
def performAccess (a : Access) (s : State) : Result :=
  match a with
  | .write addr width v =>
    match place s.params addr width with
    | .admitted off => writeWindow off v { s with index := s.index + 1 }
    | .notAdmitted => .refused .accessNotAdmitted
    | .outside => .fault .outsideWindow
  | .read addr width =>
    match place s.params addr width with
    | .admitted off => .next { s with index := s.index + 1, reads := s.reads ++ [readWindow off s] }
    | .notAdmitted => .refused .accessNotAdmitted
    | .outside => .fault .outsideWindow

/-- The reset input (R230): every piece of the spec's state takes its reset value. The host's list, its index and the values
it has read are not RSENC's, and the model's own fields keep their values. -/
def applyReset (s : State) : State :=
  { State.resetOf s.params with
    raised := s.raised
    freeCount := s.freeCount
    pending := s.pending
    index := s.index
    reads := s.reads }

/-- One event at the port. -/
def performEvent (e : Event) (s : State) : Result :=
  match e with
  | .access a => performAccess a s
  | .reset => .next (applyReset s)

end Sys2Proof.Machine
end

