-- ==== Sys2Proof/Machine/Step.lean ====
section
/-! DEFINITION. One step of the machine: the next event of the host's list (20_memory.md R59). -/

namespace Sys2Proof.Machine

/-- One event is taken from the head of the host's list and performed. With none left the block is idle and keeps all state
(60_exceptions.md R216; 70_reset_and_hazards.md R232). -/
def step (s : State) : Host.Outcome State Fault Refusal :=
  match s.pending with
  | [] => .next s
  | e :: rest => performEvent e { s with pending := rest }

/-- The state in which the next step performs the host write of the command word `w` to CMD. RSENC fetches nothing (R20): a
command reaches it only as such a write (notes/assumptions/4.md). -/
def State.withFetchWord (s : State) (nbits w : Nat) : State :=
  { s with pending := .access (.write s.params.base 4 (BitVec.ofNat 32 (w % 2 ^ nbits))) :: s.pending }

end Sys2Proof.Machine
end

