-- ==== Sys2Proof/Safety.lean ====
section
/-! DEFINITION. The terms claims are stated in: the invariant of a state, the end and the observation of a run
(70_reset_and_hazards.md R250), runs without a raise (92_eei_decisions.md D7), sequences of commands, and polynomials over
GF(256) (41_galois.md R130, R134; 42_reedsolomon.md R150). -/

namespace Sys2Proof.Machine

/-! ### Runs -/

/-- The run has ended: the last access of the host's list has been performed (R250). R250 says nothing of a reset during the run:
that a reset still in the list after the last access belongs to the run, which ends only when it has been taken too, is this
model's choice (DESIGN CHOICE, notes/assumptions/18.md). -/
abbrev State.Ended (s : State) : Prop := s.pending = []

/-- No command has raised so far (D7): what a claim assumes when it says "no raise". -/
abbrev State.NoRaise (s : State) : Prop := s.raised = false

/-- What a run shows (R250): the state of R21, less the entries that R25, R28 and R29 leave unspecified, and the values read. -/
structure Observation where
  bufs : List (List Bool)
  deg : Byte
  div : List Byte
  rem : List Byte
  arg : Word
  result : Word
  status : Word
  params : Config.Params
  reads : List Word
  deriving DecidableEq, Repr

/-- The observation of a state. -/
def observe (s : State) : Observation where
  bufs := s.bufs
  deg := s.deg
  div := s.div.take s.deg.toNat
  rem := s.rem.take s.deg.toNat
  arg := s.arg
  result := s.result
  status := s.status
  params := s.params
  reads := s.reads

/-! ### The invariant -/

/-- STATUS as R32 allows it: bits 31:5 are 0 and CODE is at most 5; a non-zero CODE comes with ERR (R203, R204, R182), and ERR
comes with the model's mark (D7). -/
abbrev State.StatusWf (s : State) : Prop :=
  s.status.toNat < 32 ∧ (statusCode s.status).toNat ≤ 5 ∧
  (statusCode s.status ≠ 0 → statusErr s.status = true) ∧ (statusErr s.status = true → s.raised = true)

/-- The states a run can reach: legal parameters (R8), NB buffers within BB_CAP (R22, R24), register files of NMAX entries
(R28, R29), DEG within NMAX (R27), RESULT a length or a zero-extended byte or bit (R184), and STATUS as above. -/
abbrev State.Wf (s : State) : Prop :=
  s.params.Legal ∧
  s.bufs.length = s.params.nb ∧ (∀ bits ∈ s.bufs, bits.length ≤ s.params.bbCap) ∧
  s.div.length = s.params.nmax ∧ s.rem.length = s.params.nmax ∧ s.deg.toNat ≤ s.params.nmax ∧
  s.result.toNat ≤ max s.params.bbCap 255 ∧
  s.StatusWf

/-! ### Commands in a row -/

/-- The command that the next step executes: the host's next access is an admitted write to CMD of a legal word. -/
def nextCommand (s : State) : Option Instr :=
  match s.pending with
  | .access (.write addr width w) :: _ =>
    if place s.params addr width = .admitted 0 then
      match decode w with
      | .ok i => some i
      | .error _ => none
    else none
  | _ => none

/-- The next step is a reset. -/
def nextIsReset (s : State) : Bool :=
  match s.pending with
  | .reset :: _ => true
  | _ => false

/-- The next step is an admitted write of `v` at the window offset `off`. -/
def nextIsWrite (s : State) (off : Nat) (v : Word) : Bool :=
  match s.pending with
  | .access (.write addr width w) :: _ => place s.params addr width == .admitted off && w == v
  | _ => false

/-- Commands executed one after another. -/
def execAll : List Instr → State → Result
  | [], s => .next s
  | i :: is, s =>
    match exec i s with
    | .next t => execAll is t
    | .fault r => .fault r
    | .refused r => .refused r

/-- RS_FEED of every byte of `data`, in order. -/
def feeds (data : List Byte) : List Instr := data.map .rsFeed

/-- BB_CLEAR and BB_CLONE make buffer `b` a new one (R23). -/
def emptiesBuffer (i : Instr) (b : Nat) : Bool :=
  match i with
  | .bbClear c => c == b
  | .bbClone c _ => c == b
  | _ => false

/-- The buffer that a command names as its destination (R26). -/
def destinationBuffer (i : Instr) : Option Nat :=
  match i with
  | .bbClear b => some b
  | .bbAppend b _ => some b
  | .bbAppendBuf b _ => some b
  | .bbClone b _ => some b
  | _ => none

/-- The codes that R202 lists for a command. -/
def raisableCodes (i : Instr) : List StatusCode :=
  match i with
  | .nop => []
  | .stClr => []
  | .rsClr => []
  | .gfMul _ _ => []
  | .bbClear _ => [.invalidArgument]
  | .bbLen _ => [.invalidArgument]
  | .bbClone _ _ => [.invalidArgument]
  | .bbAppend _ _ => [.invalidArgument, .capacityExceeded]
  | .bbAppendBuf _ _ => [.invalidArgument, .capacityExceeded]
  | .bbRead _ => [.invalidArgument, .indexOutOfRange]
  | .rsDiv _ => [.invalidArgument]
  | .rsFeed _ => [.notReady]
  | .rsRdrem _ => [.indexOutOfRange]
  | .rsRddiv _ => [.indexOutOfRange]

/-! ### Sequences of appends (R107) -/

/-- One append to a buffer: a value of `w` bits, or another buffer's content. -/
inductive Piece where
  | value (w : Nat) (v : Word)
  | buffer (src : Nat)
  deriving DecidableEq, Repr

/-- "The w-bit big-endian binary form of v" (R107). -/
def bigEndian : Nat → Nat → List Bool
  | 0, _ => []
  | w + 1, v => v.testBit w :: bigEndian w v

/-- The appends `ps` to buffer `b` all complete, leading from `s` to `t`, and `bits` are the pieces one after another, each as
it stood at its command. -/
def AppendsComplete (b : Nat) : List Piece → State → State → List Bool → Prop
  | [], s, t, bits => t = s ∧ bits = []
  | .value w v :: ps, s, t, bits => ∃ m rest,
      exec (.bbAppend b w) { s with arg := v } = .next m ∧ statusCode m.status = 0 ∧
      bits = bigEndian w v.toNat ++ rest ∧ AppendsComplete b ps m t rest
  | .buffer src :: ps, s, t, bits => ∃ m rest,
      exec (.bbAppendBuf b src) s = .next m ∧ statusCode m.status = 0 ∧
      bits = s.buf src ++ rest ∧ AppendsComplete b ps m t rest

/-! ### GF(256) and its polynomials -/

/-- Carry-less product of `a` and a factor `b` below 2^8: polynomials over GF(2) as bit patterns (R130). -/
def carrylessMul (a b : Nat) : Nat :=
  (List.range 8).foldl (fun acc i => if b.testBit i then acc ^^^ (a <<< i) else acc) 0

/-- `α^i` (R134). -/
def alphaPow : Nat → Byte
  | 0 => 0x01
  | i + 1 => gfMul (alphaPow i) 0x02

/-- The coefficient of `x^k` in the polynomial whose coefficients `p` lists, highest order first (R150). -/
def coeff (p : List Byte) (k : Nat) : Byte := p.reverse.getD k 0

/-- Sum over GF(256) of `f 0` to `f (n-1)` (R15). -/
def xorSum (n : Nat) (f : Nat → Byte) : Byte := (List.range n).foldl (fun acc i => acc ^^^ f i) 0

/-- The coefficient of `x^k` in the product of two polynomials. -/
def coeffMul (p q : List Byte) (k : Nat) : Byte := xorSum (k + 1) fun i => gfMul (coeff p i) (coeff q (k - i))

/-- `p(x) · (x + a)`. -/
def mulLinear (p : List Byte) (a : Byte) : List Byte :=
  List.zipWith (fun u v => u ^^^ v) (p ++ [0]) (0 :: p.map fun c => gfMul c a)

/-- `Π_{i=0}^{n-1} (x + α^i)`, its n+1 coefficients highest order first (R14, R152). -/
def generator : Nat → List Byte
  | 0 => [1]
  | n + 1 => mulLinear (generator n) (alphaPow n)

/-- `r` is the remainder of `M(x)·x^n` divided by `g`, for a divisor `g` of degree `n`: `M(x)·x^n = q(x)·g(x) + r(x)` for some
quotient `q`, and `r` has `n` coefficients (R155). -/
def IsRemainder (n : Nat) (g message r : List Byte) : Prop :=
  r.length = n ∧ ∃ q : List Byte, ∀ k, coeff (message ++ List.replicate n 0) k = coeffMul g q k ^^^ coeff r k

end Sys2Proof.Machine
end

