-- ==== Sys2Proof/Certificates/Slice0/Obligations.lean ====
section
/-! DEFINITION. The statements for the provers, one `def Obligations.<Name> : Prop` each; OBLIGATIONS.json lists them.
STATUS after a command that completes is written `st &&& 0xFFFFFFF0` (CODE 0, ERR kept, R204), and after a raise of code c it
is `(st &&& 0xFFFFFFE0) ||| (0x10 + c)` (CODE c, ERR 1, R203). The field `raised` is the model's own mark
(92_eei_decisions.md D7, notes/assumptions/6.md). -/

open Sys2Proof Sys2Proof.Machine

/-! ### Encoding -/

/-- Decoding the word of a well-formed command gives the command back, at every operand value (R72 to R76, R78). -/
def Obligations.DecodeInvertsEncode : Prop :=
  ∀ i : Instr, i.wellFormed = true → decode (encode i) = .ok i

/-- A legal word is the word of the command it decodes to: no two words share a meaning (R72 to R76, R78). -/
def Obligations.EncodeInvertsDecode : Prop :=
  ∀ (w : Word) (i : Instr), decode w = .ok i → i.wellFormed = true ∧ encode i = w

/-- The table of R76: which words are which command, and what each field is (R75, R78). -/
def Obligations.OpcodeMapDecidesDecoding : Prop :=
  ∀ w : Word,
    let fb := w.toNat / 2 ^ 20 % 2 ^ 4
    let fs := w.toNat / 2 ^ 16 % 2 ^ 4
    let fw := w.toNat / 2 ^ 8 % 2 ^ 6
    let fa := w.toNat / 2 ^ 8 % 2 ^ 8
    let fc := w.toNat % 2 ^ 8
    (decode w = .ok .nop ↔ w &&& 0xFFFFFFFF#32 = 0x00000000#32) ∧
    (decode w = .ok .stClr ↔ w &&& 0xFFFFFFFF#32 = 0x01000000#32) ∧
    (∀ b, decode w = .ok (.bbClear b) ↔ w &&& 0xFF0FFFFF#32 = 0x10000000#32 ∧ b = fb) ∧
    (∀ b n, decode w = .ok (.bbAppend b n) ↔ w &&& 0xFF0FC0FF#32 = 0x11000000#32 ∧ b = fb ∧ n = fw) ∧
    (∀ b c, decode w = .ok (.bbAppendBuf b c) ↔ w &&& 0xFF00FFFF#32 = 0x12000000#32 ∧ b = fb ∧ c = fs) ∧
    (∀ b c, decode w = .ok (.bbClone b c) ↔ w &&& 0xFF00FFFF#32 = 0x13000000#32 ∧ b = fb ∧ c = fs) ∧
    (∀ b, decode w = .ok (.bbLen b) ↔ w &&& 0xFF0FFFFF#32 = 0x14000000#32 ∧ b = fb) ∧
    (∀ b, decode w = .ok (.bbRead b) ↔ w &&& 0xFF0FFFFF#32 = 0x15000000#32 ∧ b = fb) ∧
    (∀ a c, decode w = .ok (.gfMul a c) ↔ w &&& 0xFFFF0000#32 = 0x20000000#32 ∧ a.toNat = fa ∧ c.toNat = fc) ∧
    (∀ n, decode w = .ok (.rsDiv n) ↔ w &&& 0xFFFFFF00#32 = 0x30000000#32 ∧ n = fc) ∧
    (decode w = .ok .rsClr ↔ w &&& 0xFFFFFFFF#32 = 0x31000000#32) ∧
    (∀ d, decode w = .ok (.rsFeed d) ↔ w &&& 0xFFFFFF00#32 = 0x32000000#32 ∧ d.toNat = fc) ∧
    (∀ j, decode w = .ok (.rsRdrem j) ↔ w &&& 0xFFFFFF00#32 = 0x33000000#32 ∧ j = fc) ∧
    (∀ j, decode w = .ok (.rsRddiv j) ↔ w &&& 0xFFFFFF00#32 = 0x34000000#32 ∧ j = fc)

/-- R79: the words of the 242 unlisted OPC values, and the words with a listed OPC that match no row, are illegal; executing
one raises ILLEGAL_COMMAND (code 4) and changes nothing but STATUS. -/
def Obligations.IllegalWordsRaiseIllegalCommand : Prop :=
  (∀ w : Word,
    let opc := w.toNat / 2 ^ 24
    let unlisted := (0x02 ≤ opc ∧ opc ≤ 0x0F) ∨ (0x16 ≤ opc ∧ opc ≤ 0x1F) ∨ (0x21 ≤ opc ∧ opc ≤ 0x2F) ∨ 0x35 ≤ opc
    let matchesNoRow := ∀ row ∈
      [(0x00000000#32, 0xFFFFFFFF#32), (0x01000000#32, 0xFFFFFFFF#32), (0x10000000#32, 0xFF0FFFFF#32),
       (0x11000000#32, 0xFF0FC0FF#32), (0x12000000#32, 0xFF00FFFF#32), (0x13000000#32, 0xFF00FFFF#32),
       (0x14000000#32, 0xFF0FFFFF#32), (0x15000000#32, 0xFF0FFFFF#32), (0x20000000#32, 0xFFFF0000#32),
       (0x30000000#32, 0xFFFFFF00#32), (0x31000000#32, 0xFFFFFFFF#32), (0x32000000#32, 0xFFFFFF00#32),
       (0x33000000#32, 0xFFFFFF00#32), (0x34000000#32, 0xFFFFFF00#32)], w &&& row.2 ≠ row.1
    (decode w = .error .reservedOpcode ↔ unlisted) ∧
    (decode w = .error .reservedBits ↔ ¬unlisted ∧ matchesNoRow) ∧
    (unlisted ∨ matchesNoRow → ∀ s : State, executeWord w s =
      .next { s with status := (s.status &&& 0xFFFFFFE0#32) ||| 0x14#32, raised := true })) ∧
  decode 0x14010000#32 = .error .reservedBits ∧ decode 0x30000100#32 = .error .reservedBits ∧
  decode 0x00000000#32 = .ok .nop

/-- The encoded examples of R83, read and written; `BB_APPEND b0, 32` is a legal word that raises INVALID_ARGUMENT. -/
def Obligations.SpecExampleWords : Prop :=
  (∀ p ∈ ([(.nop, 0x00000000), (.stClr, 0x01000000), (.bbClear 2, 0x10200000), (.bbAppend 1 8, 0x11100800),
      (.bbAppend 0 31, 0x11001F00), (.bbAppend 0 32, 0x11002000), (.bbAppendBuf 0 2, 0x12020000),
      (.bbClone 3 0, 0x13300000), (.bbLen 1, 0x14100000), (.bbRead 0, 0x15000000), (.gfMul 0x53 0xCA, 0x200053CA),
      (.rsDiv 10, 0x3000000A), (.rsClr, 0x31000000), (.rsFeed 0x20, 0x32000020), (.rsRdrem 9, 0x33000009),
      (.rsRddiv 0, 0x34000000)] : List (Instr × Word)),
    decode p.2 = .ok p.1 ∧ encode p.1 = p.2) ∧
  ∀ s : State, exec (.bbAppend 0 32) s =
    .next { s with status := (s.status &&& 0xFFFFFFE0#32) ||| 0x11#32, raised := true }

/-! ### The port: accesses, reset, idling -/

/-- A step runs the decoded command: a host write to CMD executes the word's command, in the state with the access taken and
counted; a word that does not decode raises ILLEGAL_COMMAND (R54, R180). -/
def Obligations.StepExecutesWrittenCommand : Prop :=
  ∀ (s : State) (rest : List Event) (w : Word),
    s.pending = .access (.write s.params.base 4 w) :: rest →
    (∀ i, decode w = .ok i → step s = exec i { s with pending := rest, index := s.index + 1 }) ∧
    (∀ e, decode w = .error e → step s = .next { s with
      pending := rest, index := s.index + 1, status := (s.status &&& 0xFFFFFFE0#32) ||| 0x14#32, raised := true })

/-- With no access left the block is idle and keeps all state (R216, R232). -/
def Obligations.IdleStepKeepsState : Prop :=
  ∀ s : State, s.pending = [] → step s = .next s

/-- The register window of R51: what a read of every offset returns, with no side effect (R53), what a write to every offset
does (R54), the words of CONFIG and CAPACITY (R33, R34), and the column "reset". -/
def Obligations.RegisterWindowMap : Prop :=
  (∀ (s : State) (rest : List Event) (off : Nat), s.params.Legal → off < 256 → off % 4 = 0 →
    s.pending = .access (.read (s.params.base + off) 4) :: rest →
    ∃ v : Word, step s = .next { s with pending := rest, index := s.index + 1, reads := s.reads ++ [v] } ∧
      (off = 0x00 → v = 0) ∧ (off = 0x04 → v = s.arg) ∧ (off = 0x08 → v = s.result) ∧ (off = 0x0C → v = s.status) ∧
      (off = 0x10 → v = BitVec.ofNat 32
        (s.params.nb + 2 ^ 8 * s.params.nmax + 2 ^ 16 * (if s.params.gfImpl = .bitserial then 1 else 0))) ∧
      (off = 0x14 → v = BitVec.ofNat 32 s.params.bbCap) ∧ (0x18 ≤ off → v = 0)) ∧
  (∀ (s : State) (rest : List Event) (off : Nat) (v : Word), off < 256 → off % 4 = 0 →
    s.pending = .access (.write (s.params.base + off) 4 v) :: rest →
    (off = 0x00 → step s = executeWord v { s with pending := rest, index := s.index + 1 }) ∧
    (off = 0x04 → step s = .next { s with pending := rest, index := s.index + 1, arg := v }) ∧
    (0x08 ≤ off → step s = .next { s with pending := rest, index := s.index + 1 })) ∧
  readWindow 0x10 State.reset = 0x00001E04#32 ∧ readWindow 0x14 State.reset = 0x00008000#32 ∧
  State.reset.arg = 0 ∧ State.reset.result = 0 ∧ State.reset.status = 0

/-- R52: in the window, an access of another width or at an offset that is no multiple of 4 is refused, and every other access
is performed. -/
def Obligations.OnlyAlignedWordAccessesAdmitted : Prop :=
  ∀ (s : State) (rest : List Event) (addr width : Nat) (v : Word),
    s.params.base ≤ addr → addr < s.params.base + 256 →
    (s.pending = .access (.read addr width) :: rest ∨ s.pending = .access (.write addr width v) :: rest) →
    (width ≠ 4 ∨ (addr - s.params.base) % 4 ≠ 0 → step s = .refused .accessNotAdmitted) ∧
    (width = 4 ∧ (addr - s.params.base) % 4 = 0 → ∃ t, step s = .next t ∧ t.pending = rest ∧ t.index = s.index + 1)

/-- The model's own choice (notes/assumptions/5.md): an access outside the 256 bytes at BASE (R50) stops with a fault. -/
def Obligations.AccessOutsideWindowFaults : Prop :=
  ∀ (s : State) (rest : List Event) (addr width : Nat) (v : Word),
    (addr < s.params.base ∨ s.params.base + 256 ≤ addr) →
    (s.pending = .access (.read addr width) :: rest ∨ s.pending = .access (.write addr width v) :: rest) →
    step s = .fault .outsideWindow

/-- The access index starts at 0, advances by exactly one per access, and no command can change it, nor which access comes next
(R20). Two clauses are the model's reading and no rule of the spec: that a reset step takes only itself from the host's list and
leaves the index (DEDUCED, notes/assumptions/8.md), and that a step with an empty list idles (DEDUCED, notes/assumptions/4.md). -/
def Obligations.AccessIndexAdvancesByOne : Prop :=
  State.reset.index = 0 ∧
  (∀ s t : State, step s = .next t →
    (∃ a rest, s.pending = .access a :: rest ∧ t.pending = rest ∧ t.index = s.index + 1) ∨
    (∃ rest, s.pending = .reset :: rest ∧ t.pending = rest ∧ t.index = s.index) ∨
    (s.pending = [] ∧ t.pending = [] ∧ t.index = s.index)) ∧
  (∀ (i : Instr) (s t : State), exec i s = .next t →
    t.index = s.index ∧ t.pending = s.pending ∧ t.reads = s.reads)

/-- The reset values of R38, after the reset input and in the state right after power-on. Nothing is said of the stores that R38
leaves unspecified. That the reset input leaves the host's list (`pending`), its index and its read values (`reads`) as they were
is the model's reading, not R38's (DEDUCED, notes/assumptions/8.md). -/
def Obligations.ResetGivesResetValues : Prop :=
  (∀ (s : State) (rest : List Event), s.pending = .reset :: rest →
    ∃ t, step s = .next t ∧ t.bufs = List.replicate s.params.nb [] ∧ t.deg = 0 ∧ t.arg = 0x00000000#32 ∧
      t.result = 0x00000000#32 ∧ t.status = 0x00000000#32 ∧ t.params = s.params ∧
      t.pending = rest ∧ t.index = s.index ∧ t.reads = s.reads) ∧
  (∀ b < State.reset.params.nb, State.reset.buf b = []) ∧ State.reset.bufs.length = State.reset.params.nb ∧
  State.reset.deg = 0 ∧ State.reset.arg = 0 ∧ State.reset.result = 0 ∧ State.reset.status = 0 ∧
  State.reset.params.nb = 4 ∧ State.reset.params.bbCap = 32768 ∧ State.reset.params.nmax = 30 ∧
  State.reset.params.gfImpl = .table

/-- R60, R241: a command that follows a write of ARG uses the value written, and ARG keeps it. -/
def Obligations.CommandUsesLastArgWrite : Prop :=
  ∀ (s : State) (rest : List Event) (v w : Word) (i : Instr),
    s.pending = .access (.write (s.params.base + 4) 4 v) :: .access (.write s.params.base 4 w) :: rest →
    decode w = .ok i →
    Sys2Proof.core.run 2 s = exec i { s with arg := v, pending := rest, index := s.index + 2 } ∧
    ∀ t, Sys2Proof.core.run 2 s = .next t → t.arg = v

/-! ### Invariants of every step -/

/-- The invariant `State.Wf` holds after reset, for every legal instance. -/
def Obligations.ResetStateIsWellFormed : Prop :=
  State.reset.Wf ∧ ∀ p : Config.Params, p.Legal → (State.resetOf p).Wf

/-- Every step keeps the invariant: lengths within BB_CAP (R24), DEG within NMAX (R27), register files of NMAX entries,
STATUS's reserved bits 0 and CODE at most 5 (R32), a non-zero CODE only with ERR. -/
def Obligations.StepKeepsWellFormedState : Prop :=
  ∀ s t : State, s.Wf → step s = .next t → t.Wf

/-- The instance's parameters, and with them the constants CONFIG and CAPACITY (R33, R34), never change. -/
def Obligations.StepKeepsParameters : Prop :=
  ∀ s t : State, step s = .next t →
    t.params = s.params ∧ readWindow 0x10 t = readWindow 0x10 s ∧ readWindow 0x14 t = readWindow 0x14 s

/-- R27, R28: whenever DEG is not 0, DIV[0] to DIV[DEG-1] are the coefficients below the leading 1 of
`Π_{i<DEG} (x + α^i)`, highest order first. It holds after reset and every step keeps it. -/
def Obligations.DivHoldsGeneratorOfDegree : Prop :=
  (State.reset.deg ≠ 0 → 1 :: State.reset.div.take State.reset.deg.toNat = generator State.reset.deg.toNat) ∧
  ∀ s t : State,
    (s.deg ≠ 0 → 1 :: s.div.take s.deg.toNat = generator s.deg.toNat) → step s = .next t →
    t.deg ≠ 0 → 1 :: t.div.take t.deg.toNat = generator t.deg.toNat

/-! ### What each command does -/

/-- NOP (R181). -/
def Obligations.NopClearsCodeOnly : Prop :=
  decode 0x00000000#32 = .ok .nop ∧
  (∀ s : State, exec .nop s = .next { s with status := s.status &&& 0xFFFFFFF0#32 }) ∧
  ∀ s t : State, s.status = 0x00000011#32 → exec .nop s = .next t → t.status = 0x00000010#32

/-- ST_CLR (R182): it clears CODE and ERR, it is the only command that clears ERR, and reset clears it too. -/
def Obligations.StClrClearsStatus : Prop :=
  decode 0x01000000#32 = .ok .stClr ∧
  (∀ s : State, exec .stClr s = .next { s with status := s.status &&& 0xFFFFFFE0#32 }) ∧
  (∀ (i : Instr) (s t : State), exec i s = .next t → statusErr s.status = true → statusErr t.status = false → i = .stClr) ∧
  ∀ s t : State, nextIsReset s = true → step s = .next t → statusErr t.status = false

/-- BB_CLEAR (R101). -/
def Obligations.BbClearEmptiesBuffer : Prop :=
  (∀ w : Word, w &&& 0xFF0FFFFF#32 = 0x10000000#32 → decode w = .ok (.bbClear (w.toNat / 2 ^ 20 % 2 ^ 4))) ∧
  ∀ (s : State) (b : Nat),
    (b < s.params.nb → exec (.bbClear b) s =
      .next { s with bufs := s.bufs.set b [], status := s.status &&& 0xFFFFFFF0#32 }) ∧
    (s.params.nb ≤ b → exec (.bbClear b) s =
      .next { s with status := (s.status &&& 0xFFFFFFE0#32) ||| 0x11#32, raised := true })

/-- BB_APPEND (R102): the checks in order, and the low W bits of ARG appended most significant first. -/
def Obligations.BbAppendAppendsValue : Prop :=
  (∀ w : Word, w &&& 0xFF0FC0FF#32 = 0x11000000#32 →
    decode w = .ok (.bbAppend (w.toNat / 2 ^ 20 % 2 ^ 4) (w.toNat / 2 ^ 8 % 2 ^ 6))) ∧
  ∀ (s : State) (b w : Nat),
    (b < s.params.nb → w ≤ 31 → s.arg.toNat < 2 ^ w → (s.buf b).length + w ≤ s.params.bbCap → exec (.bbAppend b w) s =
      .next { s with
        bufs := s.bufs.set b (s.buf b ++ (List.range w).map fun k => s.arg.getLsbD (w - 1 - k))
        status := s.status &&& 0xFFFFFFF0#32 }) ∧
    (s.params.nb ≤ b ∨ 31 < w ∨ 2 ^ w ≤ s.arg.toNat → exec (.bbAppend b w) s =
      .next { s with status := (s.status &&& 0xFFFFFFE0#32) ||| 0x11#32, raised := true }) ∧
    (b < s.params.nb → w ≤ 31 → s.arg.toNat < 2 ^ w → s.params.bbCap < (s.buf b).length + w → exec (.bbAppend b w) s =
      .next { s with status := (s.status &&& 0xFFFFFFE0#32) ||| 0x13#32, raised := true })

/-- BB_APPENDBUF (R103). -/
def Obligations.BbAppendBufAppendsSource : Prop :=
  (∀ w : Word, w &&& 0xFF00FFFF#32 = 0x12000000#32 →
    decode w = .ok (.bbAppendBuf (w.toNat / 2 ^ 20 % 2 ^ 4) (w.toNat / 2 ^ 16 % 2 ^ 4))) ∧
  ∀ (s : State) (b src : Nat),
    (b < s.params.nb → src < s.params.nb → src ≠ b → (s.buf b).length + (s.buf src).length ≤ s.params.bbCap →
      exec (.bbAppendBuf b src) s =
        .next { s with bufs := s.bufs.set b (s.buf b ++ s.buf src), status := s.status &&& 0xFFFFFFF0#32 }) ∧
    (s.params.nb ≤ b ∨ s.params.nb ≤ src ∨ src = b → exec (.bbAppendBuf b src) s =
      .next { s with status := (s.status &&& 0xFFFFFFE0#32) ||| 0x11#32, raised := true }) ∧
    (b < s.params.nb → src < s.params.nb → src ≠ b → s.params.bbCap < (s.buf b).length + (s.buf src).length →
      exec (.bbAppendBuf b src) s =
        .next { s with status := (s.status &&& 0xFFFFFFE0#32) ||| 0x13#32, raised := true })

/-- BB_CLONE (R104): the destination becomes a copy; a clone onto itself changes nothing but CODE. -/
def Obligations.BbCloneCopiesSource : Prop :=
  (∀ w : Word, w &&& 0xFF00FFFF#32 = 0x13000000#32 →
    decode w = .ok (.bbClone (w.toNat / 2 ^ 20 % 2 ^ 4) (w.toNat / 2 ^ 16 % 2 ^ 4))) ∧
  ∀ (s : State) (b src : Nat),
    (b < s.params.nb → src < s.params.nb → exec (.bbClone b src) s =
      .next { s with bufs := s.bufs.set b (s.buf src), status := s.status &&& 0xFFFFFFF0#32 }) ∧
    (b < s.params.nb → exec (.bbClone b b) s = .next { s with status := s.status &&& 0xFFFFFFF0#32 }) ∧
    (s.params.nb ≤ b ∨ s.params.nb ≤ src → exec (.bbClone b src) s =
      .next { s with status := (s.status &&& 0xFFFFFFE0#32) ||| 0x11#32, raised := true })

/-- BB_LEN (R105). -/
def Obligations.BbLenReturnsLength : Prop :=
  (∀ w : Word, w &&& 0xFF0FFFFF#32 = 0x14000000#32 → decode w = .ok (.bbLen (w.toNat / 2 ^ 20 % 2 ^ 4))) ∧
  ∀ (s : State) (b : Nat),
    (b < s.params.nb → exec (.bbLen b) s =
      .next { s with result := BitVec.ofNat 32 (s.buf b).length, status := s.status &&& 0xFFFFFFF0#32 }) ∧
    (s.params.nb ≤ b → exec (.bbLen b) s =
      .next { s with status := (s.status &&& 0xFFFFFFE0#32) ||| 0x11#32, raised := true })

/-- BB_READ (R106): bit number ARG, zero-extended; the index of B is checked before the index in ARG. -/
def Obligations.BbReadReturnsBit : Prop :=
  (∀ w : Word, w &&& 0xFF0FFFFF#32 = 0x15000000#32 → decode w = .ok (.bbRead (w.toNat / 2 ^ 20 % 2 ^ 4))) ∧
  ∀ (s : State) (b : Nat),
    (b < s.params.nb → ∀ bit, (s.buf b)[s.arg.toNat]? = some bit → exec (.bbRead b) s =
      .next { s with result := BitVec.ofNat 32 bit.toNat, status := s.status &&& 0xFFFFFFF0#32 }) ∧
    (s.params.nb ≤ b → exec (.bbRead b) s =
      .next { s with status := (s.status &&& 0xFFFFFFE0#32) ||| 0x11#32, raised := true }) ∧
    (b < s.params.nb → (s.buf b).length ≤ s.arg.toNat → exec (.bbRead b) s =
      .next { s with status := (s.status &&& 0xFFFFFFE0#32) ||| 0x12#32, raised := true })

/-- GF_MUL (R132): the product, zero-extended, whatever the construction; it raises nothing and reads no state. -/
def Obligations.GfMulReturnsProduct : Prop :=
  (∀ w : Word, w &&& 0xFFFF0000#32 = 0x20000000#32 →
    decode w = .ok (.gfMul (BitVec.ofNat 8 (w.toNat / 2 ^ 8)) (BitVec.ofNat 8 w.toNat))) ∧
  (∀ (s : State) (a c : Byte), exec (.gfMul a c) s =
    .next { s with result := BitVec.ofNat 32 (gfMul a c).toNat, status := s.status &&& 0xFFFFFFF0#32 }) ∧
  (∀ a : Byte, gfMul 0 a = 0 ∧ gfMul a 0 = 0 ∧ gfMul 1 a = a ∧ gfMul a 1 = a) ∧
  gfMul 0x02 0x80 = 0x1D ∧ gfMul 0xFF 0xFF = 0xE2 ∧ gfMul 0x53 0xCA = 0x8F

/-- RS_DIV (R151): DEG, DIV and REM for every legal degree, and what stays; a degree of 0 or above NMAX raises. The entries
from n on are unspecified, and nothing is said of them. -/
def Obligations.RsDivBuildsDivisor : Prop :=
  (∀ w : Word, w &&& 0xFFFFFF00#32 = 0x30000000#32 → decode w = .ok (.rsDiv (w.toNat % 2 ^ 8))) ∧
  (∀ (s : State) (n : Nat), s.params.Legal →
    (1 ≤ n → n ≤ s.params.nmax → ∃ t, exec (.rsDiv n) s = .next t ∧
      t.deg.toNat = n ∧ 1 :: t.div.take n = generator n ∧ t.rem.take n = List.replicate n 0x00#8 ∧
      t.div.length = s.params.nmax ∧ t.rem.length = s.params.nmax ∧
      t = { s with deg := t.deg, div := t.div, rem := t.rem, freeCount := t.freeCount,
                   status := s.status &&& 0xFFFFFFF0#32 }) ∧
    (n = 0 ∨ s.params.nmax < n → exec (.rsDiv n) s =
      .next { s with status := (s.status &&& 0xFFFFFFE0#32) ||| 0x11#32, raised := true })) ∧
  generator 1 = [1, 0x01] ∧ generator 2 = [1, 0x03, 0x02]

/-- RS_CLR (R153): the first DEG entries of REM become 0, and nothing else changes but CODE; with DEG = 0 nothing at all. -/
def Obligations.RsClrClearsRemainder : Prop :=
  decode 0x31000000#32 = .ok .rsClr ∧
  (∀ s : State, s.deg.toNat ≤ s.rem.length → ∃ t, exec .rsClr s = .next t ∧
    t.rem.length = s.rem.length ∧ (∀ j < s.deg.toNat, t.rem[j]? = some 0x00#8) ∧
    (∀ j, s.deg.toNat ≤ j → t.rem[j]? = s.rem[j]?) ∧
    t = { s with rem := t.rem, status := s.status &&& 0xFFFFFFF0#32 }) ∧
  (∀ s : State, s.deg = 0 → exec .rsClr s = .next { s with status := s.status &&& 0xFFFFFFF0#32 })

/-- RS_FEED (R154): one step of the long-division sweep on the first DEG entries of REM; without a divisor it raises
NOT_READY. -/
def Obligations.RsFeedStepsDivision : Prop :=
  (∀ w : Word, w &&& 0xFFFFFF00#32 = 0x32000000#32 → decode w = .ok (.rsFeed (BitVec.ofNat 8 w.toNat))) ∧
  ∀ (s : State) (d : Byte),
    (s.deg ≠ 0 → s.deg.toNat ≤ s.rem.length → s.deg.toNat ≤ s.div.length → ∃ t, exec (.rsFeed d) s = .next t ∧
      t.rem.length = s.rem.length ∧
      (∀ j < s.deg.toNat, t.rem.getD j 0 =
        (if j + 1 < s.deg.toNat then s.rem.getD (j + 1) 0 else 0x00) ^^^ gfMul (s.div.getD j 0) (d ^^^ s.rem.getD 0 0)) ∧
      (∀ j, s.deg.toNat ≤ j → t.rem[j]? = s.rem[j]?) ∧
      t = { s with rem := t.rem, status := s.status &&& 0xFFFFFFF0#32 }) ∧
    (s.deg = 0 → exec (.rsFeed d) s =
      .next { s with status := (s.status &&& 0xFFFFFFE0#32) ||| 0x15#32, raised := true })

/-- RS_RDREM (R156). -/
def Obligations.RsRdremReturnsRemainderByte : Prop :=
  (∀ w : Word, w &&& 0xFFFFFF00#32 = 0x33000000#32 → decode w = .ok (.rsRdrem (w.toNat % 2 ^ 8))) ∧
  ∀ (s : State) (j : Nat),
    (j < s.deg.toNat → ∀ x, s.rem[j]? = some x → exec (.rsRdrem j) s =
      .next { s with result := BitVec.ofNat 32 x.toNat, status := s.status &&& 0xFFFFFFF0#32 }) ∧
    (s.deg.toNat ≤ j → exec (.rsRdrem j) s =
      .next { s with status := (s.status &&& 0xFFFFFFE0#32) ||| 0x12#32, raised := true })

/-- RS_RDDIV (R157). -/
def Obligations.RsRddivReturnsDivisorCoefficient : Prop :=
  (∀ w : Word, w &&& 0xFFFFFF00#32 = 0x34000000#32 → decode w = .ok (.rsRddiv (w.toNat % 2 ^ 8))) ∧
  ∀ (s : State) (j : Nat),
    (j < s.deg.toNat → ∀ x, s.div[j]? = some x → exec (.rsRddiv j) s =
      .next { s with result := BitVec.ofNat 32 x.toNat, status := s.status &&& 0xFFFFFFF0#32 }) ∧
    (s.deg.toNat ≤ j → exec (.rsRddiv j) s =
      .next { s with status := (s.status &&& 0xFFFFFFE0#32) ||| 0x12#32, raised := true })

/-! ### How commands end -/

/-- Every command word, in every state, either completes (CODE 0) or raises (CODE 1 to 5 and ERR 1); it never stops (R180). -/
def Obligations.CommandCompletesOrRaises : Prop :=
  ∀ (w : Word) (s : State), ∃ t, executeWord w s = .next t ∧
    (statusCode t.status = 0 ∨
      (1 ≤ (statusCode t.status).toNat ∧ (statusCode t.status).toNat ≤ 5 ∧ statusErr t.status = true))

/-- R203: a command that ends with a code other than OK has set CODE to it and ERR to 1, and changed nothing else: no buffer,
DEG, DIV, REM, ARG or RESULT. -/
def Obligations.RaiseChangesOnlyStatus : Prop :=
  ∀ (w : Word) (s t : State), executeWord w s = .next t → statusCode t.status ≠ 0 →
    t = { s with
      status := (s.status &&& 0xFFFFFFE0#32) ||| 0x10#32 ||| (statusCode t.status).setWidth 32
      raised := true }

/-- R202: each command raises only the codes its row lists, each listed code is raised by the command in some state for some
operands, and an illegal word raises ILLEGAL_COMMAND. -/
def Obligations.RaisedCodesAreThoseListed : Prop :=
  (∀ (i : Instr) (s t : State), exec i s = .next t →
    statusCode t.status = 0 ∨ ∃ c ∈ raisableCodes i, statusCode t.status = statusCodeBits c) ∧
  (∀ i : Instr, ∀ c ∈ raisableCodes i, ∃ (j : Instr) (s t : State),
    fieldOpc (encode j) = fieldOpc (encode i) ∧ s.Wf ∧ exec j s = .next t ∧ statusCode t.status = statusCodeBits c) ∧
  (∀ (w : Word) (e : IllegalWord) (s t : State), decode w = .error e → executeWord w s = .next t →
    statusCode t.status = statusCodeBits .illegalCommand)

/-- R204: a command that completes leaves ERR unchanged, ST_CLR alone excepted (R182), and every command other than a raise
leaves CODE 0, so CODE describes the last command. -/
def Obligations.CompletionKeepsErr : Prop :=
  ∀ (i : Instr) (s t : State), exec i s = .next t → statusCode t.status = 0 →
    (statusErr t.status = statusErr s.status ∨ i = .stClr) ∧
    t.status = s.status &&& (if i = .stClr then 0xFFFFFFE0#32 else 0xFFFFFFF0#32)

/-- R37: every command writes CODE; only a raising command sets ERR; only ST_CLR and reset clear it; and no other step writes
STATUS (R32). -/
def Obligations.OnlyCommandsAndResetWriteStatus : Prop :=
  ∀ s t : State, step s = .next t →
    (t.status ≠ s.status → nextIsReset s = true ∨ ∃ w, nextIsWrite s 0 w = true) ∧
    (statusErr s.status = false → statusErr t.status = true →
      ∃ w, nextIsWrite s 0 w = true ∧ statusCode t.status ≠ 0) ∧
    (statusErr s.status = true → statusErr t.status = false → nextIsReset s = true ∨ nextCommand s = some .stClr) ∧
    (∀ w, nextIsWrite s 0 w = true → ∃ c, statusCode t.status = statusCodeBits c)

/-- R205: the first failing check gives the code. INVALID_ARGUMENT comes before CAPACITY_EXCEEDED and before
INDEX_OUT_OF_RANGE, whatever the later check would say; and the rule's two examples. -/
def Obligations.FirstFailingCheckGivesCode : Prop :=
  (∀ (s t : State) (b w : Nat), exec (.bbAppend b w) s = .next t →
    (statusCode t.status = 3 ↔ (b < s.params.nb ∧ w ≤ 31 ∧ s.arg.toNat < 2 ^ w) ∧ s.params.bbCap < (s.buf b).length + w)) ∧
  (∀ (s t : State) (b src : Nat), exec (.bbAppendBuf b src) s = .next t →
    (statusCode t.status = 3 ↔ (b < s.params.nb ∧ src < s.params.nb ∧ src ≠ b) ∧
      s.params.bbCap < (s.buf b).length + (s.buf src).length)) ∧
  (∀ (s t : State) (b : Nat), exec (.bbRead b) s = .next t →
    (statusCode t.status = 2 ↔ b < s.params.nb ∧ (s.buf b).length ≤ s.arg.toNat)) ∧
  (∀ s t : State, s.params.nb = 4 → exec (.bbAppend 9 40) s = .next t → statusCode t.status = 1) ∧
  (∀ s t : State, s.arg = 0x100#32 → (s.buf 0).length = s.params.bbCap → exec (.bbAppend 0 8) s = .next t →
    statusCode t.status = 1)

/-- R206: a command that raised changed nothing, so issuing it again raises the same code, overwriting CODE and leaving ERR at
1. -/
def Obligations.RepeatedRaiseIsTheSame : Prop :=
  ∀ (w : Word) (s t : State), executeWord w s = .next t → statusCode t.status ≠ 0 →
    executeWord w t = .next t ∧ statusErr t.status = true

/-- The model's own mark of D7: as long as it is not set no command of the run has raised; no command and no reset clears it. -/
def Obligations.UnraisedMarkMeansNoRaise : Prop :=
  ∀ s t : State, step s = .next t →
    (s.raised = true → t.raised = true) ∧
    (t.raised = false → ∀ w, nextIsWrite s 0 w = true → statusCode t.status = 0)

/-! ### Who writes what -/

/-- R184: exactly five commands write RESULT, only when they complete, and the unused high bits of what they write are 0. -/
def Obligations.FiveCommandsWriteResult : Prop :=
  ∀ (i : Instr) (s t : State), exec i s = .next t →
    (t.result ≠ s.result → statusCode t.status = 0 ∧
      ((∃ b, i = .bbLen b) ∨ (∃ b, i = .bbRead b) ∨ (∃ a c, i = .gfMul a c) ∨ (∃ j, i = .rsRdrem j) ∨ ∃ j, i = .rsRddiv j)) ∧
    (statusCode t.status = 0 →
      ((∃ b, i = .bbRead b) → t.result.toNat < 2) ∧
      (((∃ a c, i = .gfMul a c) ∨ (∃ j, i = .rsRdrem j) ∨ ∃ j, i = .rsRddiv j) → t.result.toNat < 2 ^ 8) ∧
      (∀ b, i = .bbLen b → s.Wf → t.result.toNat = (s.buf b).length))

/-- R30, R31: only a write to offset 0x04 and reset change ARG, to the value written or to 0; only a command and reset change
RESULT. -/
def Obligations.ArgAndResultWriters : Prop :=
  ∀ s t : State, step s = .next t →
    (t.arg ≠ s.arg → (nextIsReset s = true ∧ t.arg = 0) ∨ nextIsWrite s 4 t.arg = true) ∧
    (t.result ≠ s.result → (nextIsReset s = true ∧ t.result = 0) ∨ ∃ i, nextCommand s = some i)

/-- R27, R50: only reset and a successful RS_DIV change DEG, and RS_DIV n leaves DEG = n with 1 ≤ n ≤ NMAX; below DEG only
RS_DIV changes DIV, and only RS_DIV, RS_CLR and RS_FEED change REM. -/
def Obligations.RsRegisterWriters : Prop :=
  ∀ s t : State, step s = .next t → nextIsReset s = false →
    (t.deg ≠ s.deg → ∃ n, nextCommand s = some (.rsDiv n) ∧ statusCode t.status = 0) ∧
    (∀ n, nextCommand s = some (.rsDiv n) → statusCode t.status = 0 →
      t.deg.toNat = n ∧ 1 ≤ n ∧ n ≤ s.params.nmax) ∧
    (t.div ≠ s.div → ∃ n, nextCommand s = some (.rsDiv n)) ∧
    (t.rem ≠ s.rem → (∃ n, nextCommand s = some (.rsDiv n)) ∨ nextCommand s = some .rsClr ∨
      ∃ d, nextCommand s = some (.rsFeed d))

/-! ### Bit buffers -/

/-- R23: in a step that is no emptying event of buffer b, its content only grows at the end: the length does not decrease and no
bit below it changes. -/
def Obligations.BufferOnlyGrowsBetweenEmptyings : Prop :=
  ∀ (s t : State) (b : Nat), step s = .next t → nextIsReset s = false →
    (∀ i, nextCommand s = some i → emptiesBuffer i b = true → statusCode t.status ≠ 0) →
    (s.buf b).length ≤ (t.buf b).length ∧ ∀ k < (s.buf b).length, (t.buf b)[k]? = (s.buf b)[k]?

/-- R26: a command changes no buffer but its destination; a source that is also the destination of BB_CLONE does not change. -/
def Obligations.CommandsChangeOnlyDestinationBuffer : Prop :=
  ∀ (i : Instr) (s t : State), exec i s = .next t →
    (∀ c, destinationBuffer i ≠ some c → t.buf c = s.buf c) ∧
    (∀ b, i = .bbClone b b → t.bufs = s.bufs) ∧
    (destinationBuffer i = none → t.bufs = s.bufs)

/-- R56: after a successful BB_APPEND of width W at length L, BB_READ of index L+k returns bit W-1-k of the value, and the bits
below L read as before. -/
def Obligations.AppendedBitsReadBackMsbFirst : Prop :=
  ∀ (s t : State) (b w : Nat), s.Wf → b < s.params.nb → exec (.bbAppend b w) s = .next t → statusCode t.status = 0 →
    (∀ k < w, ∃ u, exec (.bbRead b) { t with arg := BitVec.ofNat 32 ((s.buf b).length + k) } = .next u ∧
      statusCode u.status = 0 ∧ u.result = BitVec.ofNat 32 (s.arg.getLsbD (w - 1 - k)).toNat) ∧
    (∀ k, ∀ bit, (s.buf b)[k]? = some bit → ∃ u, exec (.bbRead b) { t with arg := BitVec.ofNat 32 k } = .next u ∧
      statusCode u.status = 0 ∧ u.result = BitVec.ofNat 32 bit.toNat)

/-- R107: successful appends put the concatenation of the pieces, in command order, after what the emptying event left in the
buffer (nothing after a reset or BB_CLEAR): each value as its W-bit big-endian binary form, each buffer as it stood at that
command. The length grows by the sum of the pieces' lengths. -/
def Obligations.AppendsConcatenatePieces : Prop :=
  ∀ (b : Nat) (ps : List Piece) (s t : State) (bits : List Bool),
    s.Wf → b < s.params.nb → AppendsComplete b ps s t bits →
    t.buf b = s.buf b ++ bits ∧ (s.buf b = [] → t.buf b = bits) ∧
    (t.buf b).length = (s.buf b).length + bits.length ∧ ∀ c, c ≠ b → t.buf c = s.buf c

/-- R57 with R56: a byte appended at a byte boundary is the codeword there, and the earlier codewords stay. -/
def Obligations.AppendedByteIsCodeword : Prop :=
  ∀ (s t : State) (b k : Nat), s.Wf → b < s.params.nb → (s.buf b).length = 8 * k →
    exec (.bbAppend b 8) s = .next t → statusCode t.status = 0 →
    codeword (t.buf b) k = s.arg.setWidth 8 ∧ ∀ j < k, codeword (t.buf b) j = codeword (s.buf b) j

/-! ### The field -/

/-- R130, R131: `gf_mul(x, y)` is the carry-less product reduced modulo 0x11D: the product differs from it by a multiple of
0x11D, and it has degree at most 7. -/
def Obligations.GfMulIsProductModulo11D : Prop :=
  ∀ x y : Byte, ∃ q < 2 ^ 8, carrylessMul x.toNat y.toNat = carrylessMul 0x11D q ^^^ (gfMul x y).toNat

/-- R131, R135: the table lookup and the bit-serial loop return the same product for all pairs, so every command computes the
same state whatever GF_IMPL is. -/
def Obligations.GfImplChangesNoValue : Prop :=
  (∀ x y : Byte, gfProduct .table x y = gfProduct .bitserial x y) ∧
  ∀ (i : Instr) (s t : State) (impl : Config.GfImpl), exec i s = .next t →
    exec i { s with params := { s.params with gfImpl := impl } } =
      .next { t with params := { t.params with gfImpl := impl } }

/-- R133: the laws of `gf_mul`. -/
def Obligations.GfMulFieldLaws : Prop :=
  (∀ a b : Byte, gfMul a b = gfMul b a) ∧
  (∀ a b c : Byte, gfMul (gfMul a b) c = gfMul a (gfMul b c)) ∧
  (∀ a b c : Byte, gfMul a (b ^^^ c) = gfMul a b ^^^ gfMul a c) ∧
  (∀ a : Byte, gfMul 0 a = 0) ∧
  (∀ a : Byte, gfMul 1 a = a) ∧
  (∀ a b : Byte, a ≠ 0 → b ≠ 0 → gfMul a b ≠ 0)

/-- R134: the powers of α = 2 start as listed, reach every non-zero element exactly once for exponents 0 to 254, and return to
1; `α^254` is the inverse of 2. -/
def Obligations.AlphaPowersReachEveryElement : Prop :=
  (List.range 16).map alphaPow =
    [0x01, 0x02, 0x04, 0x08, 0x10, 0x20, 0x40, 0x80, 0x1D, 0x3A, 0x74, 0xE8, 0xCD, 0x87, 0x13, 0x26] ∧
  (∀ x : Byte, x ≠ 0 → ∃ i < 255, alphaPow i = x ∧ ∀ j < 255, alphaPow j = x → j = i) ∧
  (∀ i < 255, alphaPow i ≠ 0) ∧
  alphaPow 255 = 0x01 ∧ alphaPow 254 = 0x8E ∧ gfMul 0x8E 0x02 = 0x01

/-! ### The remainder unit -/

/-- R152: at the end of outer pass i of RS_DIV the register holds the i+1 coefficients of `Π_{i'≤i} (x + α^i')` below its
leading 1, that 1 in position n-2-i, and 0 before it; after the last pass the leading 1 is dropped. The coefficients for n = 7
and their logarithms, and the passes for n = 3, are the rule's. -/
def Obligations.DivisorPassesBuildProductOfRoots : Prop :=
  (∀ (impl : Config.GfImpl) (n i : Nat), i + 1 < n →
    divisorPasses impl n (i + 1) 0x01 (List.replicate (n - 1) 0x00 ++ [0x01]) =
      List.replicate (n - 2 - i) 0x00 ++ generator (i + 1)) ∧
  (∀ (impl : Config.GfImpl) (n : Nat), 1 ≤ n → 1 :: buildDivisor impl n = generator n) ∧
  generator 7 = [1, 0x7F, 0x7A, 0x9A, 0xA4, 0x0B, 0x44, 0x75] ∧
  generator 7 = 1 :: [87, 229, 146, 149, 238, 102, 21].map alphaPow ∧
  (∀ impl : Config.GfImpl, (List.range 3).map (fun i => divisorPasses impl 3 (i + 1) 0x01 [0x00, 0x00, 0x01]) =
    [[0, 1, 1], [1, 3, 2], [0x07, 0x0E, 0x08]])

/-- R155: from a cleared REM, after the bytes of a message are fed, REM holds the coefficients of `M(x)·x^n mod g(x)`, with g
the product of roots after RS_DIV n, and whatever divisor DIV holds after RS_CLR. -/
def Obligations.RemainderIsMessageModDivisor : Prop :=
  (∀ (s : State) (n : Nat) (data : List Byte), s.params.Legal → 1 ≤ n → n ≤ s.params.nmax →
    ∃ t, execAll (.rsDiv n :: feeds data) s = .next t ∧ t.deg.toNat = n ∧
      IsRemainder n (generator n) data (t.rem.take n)) ∧
  (∀ (s : State) (data : List Byte), s.deg ≠ 0 → s.deg.toNat ≤ s.div.length → s.deg.toNat ≤ s.rem.length →
    ∃ t, execAll (.rsClr :: feeds data) s = .next t ∧ t.deg = s.deg ∧ t.div = s.div ∧
      IsRemainder s.deg.toNat (1 :: s.div.take s.deg.toNat) data (t.rem.take s.deg.toNat))

/-- R159: feeding a message and then its own parity bytes leaves REM all zero, with a second clear and without it. -/
def Obligations.MessageWithParityDividesEvenly : Prop :=
  ∀ (s : State) (data : List Byte), s.deg ≠ 0 → s.deg.toNat ≤ s.div.length → s.deg.toNat ≤ s.rem.length →
    ∃ t u v, execAll (.rsClr :: feeds data) s = .next t ∧
      execAll (feeds (t.rem.take s.deg.toNat)) t = .next u ∧
      u.rem.take s.deg.toNat = List.replicate s.deg.toNat 0 ∧
      execAll (.rsClr :: feeds (data ++ t.rem.take s.deg.toNat)) t = .next v ∧
      v.rem.take s.deg.toNat = List.replicate s.deg.toNat 0

/-- R160: the remainder is linear over XOR, and an all-zero message has an all-zero remainder. -/
def Obligations.RemainderIsLinear : Prop :=
  ∀ (s : State) (d1 d2 : List Byte), s.deg ≠ 0 → s.deg.toNat ≤ s.div.length → s.deg.toNat ≤ s.rem.length →
    d1.length = d2.length →
    ∃ t1 t2 t3 t0, execAll (.rsClr :: feeds d1) s = .next t1 ∧ execAll (.rsClr :: feeds d2) s = .next t2 ∧
      execAll (.rsClr :: feeds (List.zipWith (fun x y => x ^^^ y) d1 d2)) s = .next t3 ∧
      t3.rem.take s.deg.toNat =
        List.zipWith (fun x y => x ^^^ y) (t1.rem.take s.deg.toNat) (t2.rem.take s.deg.toNat) ∧
      execAll (.rsClr :: feeds (List.replicate d1.length 0)) s = .next t0 ∧
      t0.rem.take s.deg.toNat = List.replicate s.deg.toNat 0

/-! ### What cannot be observed -/

/-- R28, R29: no command reads DIV[j] or REM[j] for j ≥ DEG. Two states that agree on everything else (and differ there and in
the model's count of free values as they may) step to states that agree on everything else, with the same values read, and stop
alike. -/
def Obligations.UnspecifiedEntriesAreNeverRead : Prop :=
  ∀ s s' : State, observe s = observe s' → s.pending = s'.pending → s.index = s'.index → s.raised = s'.raised →
    (∀ t, step s = .next t → ∃ t', step s' = .next t' ∧ observe t = observe t' ∧ t.pending = t'.pending ∧
      t.index = t'.index ∧ t.raised = t'.raised) ∧
    (∀ f, step s = .fault f → step s' = .fault f) ∧
    (∀ r, step s = .refused r → step s' = .refused r)
end

