-- ==== Sys2Proof/Laws/State.lean ====
section
/-! SUPPORT. The named updates of State, field by field, and the buffer bank read after write. -/

namespace Sys2Proof.Machine

variable (s : State)

/-! ### setBuf -/

@[simp] theorem setBuf_params (b : Nat) (bits : List Bool) : (s.setBuf b bits).params = s.params := rfl
@[simp] theorem setBuf_bufs (b : Nat) (bits : List Bool) : (s.setBuf b bits).bufs = s.bufs.set b bits := rfl
@[simp] theorem setBuf_deg (b : Nat) (bits : List Bool) : (s.setBuf b bits).deg = s.deg := rfl
@[simp] theorem setBuf_div (b : Nat) (bits : List Bool) : (s.setBuf b bits).div = s.div := rfl
@[simp] theorem setBuf_rem (b : Nat) (bits : List Bool) : (s.setBuf b bits).rem = s.rem := rfl
@[simp] theorem setBuf_arg (b : Nat) (bits : List Bool) : (s.setBuf b bits).arg = s.arg := rfl
@[simp] theorem setBuf_result (b : Nat) (bits : List Bool) : (s.setBuf b bits).result = s.result := rfl
@[simp] theorem setBuf_status (b : Nat) (bits : List Bool) : (s.setBuf b bits).status = s.status := rfl
@[simp] theorem setBuf_raised (b : Nat) (bits : List Bool) : (s.setBuf b bits).raised = s.raised := rfl
@[simp] theorem setBuf_freeCount (b : Nat) (bits : List Bool) : (s.setBuf b bits).freeCount = s.freeCount := rfl
@[simp] theorem setBuf_pending (b : Nat) (bits : List Bool) : (s.setBuf b bits).pending = s.pending := rfl
@[simp] theorem setBuf_index (b : Nat) (bits : List Bool) : (s.setBuf b bits).index = s.index := rfl
@[simp] theorem setBuf_reads (b : Nat) (bits : List Bool) : (s.setBuf b bits).reads = s.reads := rfl

/-! ### setResult -/

@[simp] theorem setResult_params (v : Word) : (s.setResult v).params = s.params := rfl
@[simp] theorem setResult_bufs (v : Word) : (s.setResult v).bufs = s.bufs := rfl
@[simp] theorem setResult_deg (v : Word) : (s.setResult v).deg = s.deg := rfl
@[simp] theorem setResult_div (v : Word) : (s.setResult v).div = s.div := rfl
@[simp] theorem setResult_rem (v : Word) : (s.setResult v).rem = s.rem := rfl
@[simp] theorem setResult_arg (v : Word) : (s.setResult v).arg = s.arg := rfl
@[simp] theorem setResult_result (v : Word) : (s.setResult v).result = v := rfl
@[simp] theorem setResult_status (v : Word) : (s.setResult v).status = s.status := rfl
@[simp] theorem setResult_raised (v : Word) : (s.setResult v).raised = s.raised := rfl
@[simp] theorem setResult_freeCount (v : Word) : (s.setResult v).freeCount = s.freeCount := rfl
@[simp] theorem setResult_pending (v : Word) : (s.setResult v).pending = s.pending := rfl
@[simp] theorem setResult_index (v : Word) : (s.setResult v).index = s.index := rfl
@[simp] theorem setResult_reads (v : Word) : (s.setResult v).reads = s.reads := rfl

/-! ### completed -/

@[simp] theorem completed_params : (s.completed).params = s.params := rfl
@[simp] theorem completed_bufs : (s.completed).bufs = s.bufs := rfl
@[simp] theorem completed_deg : (s.completed).deg = s.deg := rfl
@[simp] theorem completed_div : (s.completed).div = s.div := rfl
@[simp] theorem completed_rem : (s.completed).rem = s.rem := rfl
@[simp] theorem completed_arg : (s.completed).arg = s.arg := rfl
@[simp] theorem completed_result : (s.completed).result = s.result := rfl
@[simp] theorem completed_status : (s.completed).status = statusSetCode s.status .ok := rfl
@[simp] theorem completed_raised : (s.completed).raised = s.raised := rfl
@[simp] theorem completed_freeCount : (s.completed).freeCount = s.freeCount := rfl
@[simp] theorem completed_pending : (s.completed).pending = s.pending := rfl
@[simp] theorem completed_index : (s.completed).index = s.index := rfl
@[simp] theorem completed_reads : (s.completed).reads = s.reads := rfl

/-! ### raisedWith -/

@[simp] theorem raisedWith_params (c : StatusCode) : (s.raisedWith c).params = s.params := rfl
@[simp] theorem raisedWith_bufs (c : StatusCode) : (s.raisedWith c).bufs = s.bufs := rfl
@[simp] theorem raisedWith_deg (c : StatusCode) : (s.raisedWith c).deg = s.deg := rfl
@[simp] theorem raisedWith_div (c : StatusCode) : (s.raisedWith c).div = s.div := rfl
@[simp] theorem raisedWith_rem (c : StatusCode) : (s.raisedWith c).rem = s.rem := rfl
@[simp] theorem raisedWith_arg (c : StatusCode) : (s.raisedWith c).arg = s.arg := rfl
@[simp] theorem raisedWith_result (c : StatusCode) : (s.raisedWith c).result = s.result := rfl
@[simp] theorem raisedWith_status (c : StatusCode) : (s.raisedWith c).status = statusSetErr (statusSetCode s.status c) true := rfl
@[simp] theorem raisedWith_raised (c : StatusCode) : (s.raisedWith c).raised = true := rfl
@[simp] theorem raisedWith_freeCount (c : StatusCode) : (s.raisedWith c).freeCount = s.freeCount := rfl
@[simp] theorem raisedWith_pending (c : StatusCode) : (s.raisedWith c).pending = s.pending := rfl
@[simp] theorem raisedWith_index (c : StatusCode) : (s.raisedWith c).index = s.index := rfl
@[simp] theorem raisedWith_reads (c : StatusCode) : (s.raisedWith c).reads = s.reads := rfl

/-! ### The buffer bank -/

@[simp] theorem buf_setBuf_same {b : Nat} (h : b < s.bufs.length) (bits : List Bool) : (s.setBuf b bits).buf b = bits := by
  simp [State.buf, h]

@[simp] theorem buf_setBuf_other {b c : Nat} (h : c ≠ b) (bits : List Bool) : (s.setBuf b bits).buf c = s.buf c := by
  simp [State.buf, List.getD_eq_getElem?_getD, List.getElem?_set_ne (Ne.symm h)]

@[simp] theorem buf_setResult (v : Word) (b : Nat) : (s.setResult v).buf b = s.buf b := rfl

@[simp] theorem buf_completed (b : Nat) : s.completed.buf b = s.buf b := rfl

@[simp] theorem buf_raisedWith (c : StatusCode) (b : Nat) : (s.raisedWith c).buf b = s.buf b := rfl

theorem setBuf_buf_self (b : Nat) : s.setBuf b (s.buf b) = s := by
  have h : s.bufs.set b (s.buf b) = s.bufs := by
    by_cases hb : b < s.bufs.length
    · simp [State.buf, List.getD_eq_getElem?_getD, List.getElem?_eq_getElem hb]
    · exact List.set_eq_of_length_le (by omega)
  simp only [State.setBuf, h]

theorem buf_mem_or_nil (b : Nat) : s.buf b ∈ s.bufs ∨ s.buf b = [] := by
  by_cases hb : b < s.bufs.length
  · left; simp [State.buf, List.getD_eq_getElem?_getD, List.getElem?_eq_getElem hb]
  · right; simp [State.buf, List.getD_eq_getElem?_getD, List.getElem?_eq_none (by omega : s.bufs.length ≤ b)]

end Sys2Proof.Machine
end

