-- ==== Sys2Proof/Laws/Ops.lean ====
section
/-! SUPPORT. The shared operations: how a command ends, the register files, and the operand forms. -/

namespace Sys2Proof.Machine

@[simp] theorem complete_next {s t : State} : complete s = .next t ↔ s.completed = t := by
  simp [complete]

@[simp] theorem raise_next {c : StatusCode} {s t : State} : raise c s = .next t ↔ s.raisedWith c = t := by
  simp [raise]

@[simp] theorem length_fileSetPrefix (f new : List Byte) (h : new.length ≤ f.length) :
    (fileSetPrefix f new).length = f.length := by
  simp [fileSetPrefix]; omega

theorem take_fileSetPrefix (f new : List Byte) : (fileSetPrefix f new).take new.length = new := by
  simp [fileSetPrefix]

theorem drop_fileSetPrefix (f new : List Byte) : (fileSetPrefix f new).drop new.length = f.drop new.length := by
  simp [fileSetPrefix]

theorem fileGet_take {f : List Byte} {n j : Nat} (h : j < n) : fileGet (f.take n) j = fileGet f j := by
  simp [fileGet, List.getD_eq_getElem?_getD, h]

@[simp] theorem length_freeBytes (start n : Nat) : (Config.freeBytes start n).length = n := by
  simp [Config.freeBytes]

@[simp] theorem length_msbFirst (w : Nat) (v : Word) : (msbFirst w v).length = w := by
  simp [msbFirst]

theorem getElem?_msbFirst {w k : Nat} (v : Word) (h : k < w) : (msbFirst w v)[k]? = some (v.getLsbD (w - 1 - k)) := by
  simp [msbFirst, h]

@[simp] theorem bufferIndexOk_iff (s : State) (b : Nat) : bufferIndexOk s b = true ↔ b < s.params.nb := by
  simp [bufferIndexOk]

end Sys2Proof.Machine
end

