-- ==== Sys2Proof/Laws/Commands.lean ====
section
/-! SUPPORT. One inversion lemma per command: if it answers `next t`, one of these cases holds. Later proofs cite these and do
not unfold the meanings. -/

namespace Sys2Proof.Machine

variable {s t : State}

theorem not_decide_eq {p : Prop} [Decidable p] : ((!decide p) = true) = ¬p := by simp

theorem or_eq_true_eq {a b : Bool} : ((a || b) = true) = (a = true ∨ b = true) := by simp

theorem not_beq_eq {x y : Word} : ((!(x == y)) = true) = (x ≠ y) := by simp

theorem execNop_cases (h : execNop s = .next t) : t = s.completed := by
  exact (complete_next.mp h).symm

theorem execStClr_cases (h : execStClr s = .next t) :
    t = State.completed { s with status := statusSetErr s.status false } := by
  exact (complete_next.mp h).symm

theorem execBbClear_cases {b : Nat} (h : execBbClear b s = .next t) :
    (s.params.nb ≤ b ∧ t = s.raisedWith .invalidArgument) ∨
    (b < s.params.nb ∧ t = (s.setBuf b []).completed) := by
  simp only [execBbClear, bufferIndexOk, not_decide_eq] at h
  split at h <;> simp_all

theorem execBbAppend_cases {b w : Nat} (h : execBbAppend b w s = .next t) :
    ((s.params.nb ≤ b ∨ 31 < w ∨ s.arg >>> w ≠ 0) ∧ t = s.raisedWith .invalidArgument) ∨
    ((b < s.params.nb ∧ w ≤ 31 ∧ s.arg >>> w = 0) ∧ s.params.bbCap < (s.buf b).length + w ∧
      t = s.raisedWith .capacityExceeded) ∨
    ((b < s.params.nb ∧ w ≤ 31 ∧ s.arg >>> w = 0) ∧ (s.buf b).length + w ≤ s.params.bbCap ∧
      t = (s.setBuf b (s.buf b ++ msbFirst w s.arg)).completed) := by
  simp only [execBbAppend, bufferIndexOk, fitsIn, not_decide_eq, not_beq_eq] at h
  split at h
  · simp_all
  · split at h
    · left; simp_all
    · split at h
      · simp_all
      · split at h <;> simp_all

theorem execBbAppendBuf_cases {b src : Nat} (h : execBbAppendBuf b src s = .next t) :
    ((s.params.nb ≤ b ∨ s.params.nb ≤ src ∨ src = b) ∧ t = s.raisedWith .invalidArgument) ∨
    ((b < s.params.nb ∧ src < s.params.nb ∧ src ≠ b) ∧ s.params.bbCap < (s.buf b).length + (s.buf src).length ∧
      t = s.raisedWith .capacityExceeded) ∨
    ((b < s.params.nb ∧ src < s.params.nb ∧ src ≠ b) ∧ (s.buf b).length + (s.buf src).length ≤ s.params.bbCap ∧
      t = (s.setBuf b (s.buf b ++ s.buf src)).completed) := by
  simp only [execBbAppendBuf, bufferIndexOk, not_decide_eq, or_eq_true_eq] at h
  split at h
  · left; simp_all; tauto
  · split at h
    · left; simp_all
    · split at h <;> simp_all

theorem execBbClone_cases {b src : Nat} (h : execBbClone b src s = .next t) :
    ((s.params.nb ≤ b ∨ s.params.nb ≤ src) ∧ t = s.raisedWith .invalidArgument) ∨
    ((b < s.params.nb ∧ src < s.params.nb) ∧ t = (s.setBuf b (s.buf src)).completed) := by
  simp only [execBbClone, bufferIndexOk, not_decide_eq, or_eq_true_eq] at h
  split at h <;> simp_all

theorem execBbLen_cases {b : Nat} (h : execBbLen b s = .next t) :
    (s.params.nb ≤ b ∧ t = s.raisedWith .invalidArgument) ∨
    (b < s.params.nb ∧ t = (s.setResult (BitVec.ofNat 32 (s.buf b).length)).completed) := by
  simp only [execBbLen, bufferIndexOk, not_decide_eq] at h
  split at h <;> simp_all

theorem execBbRead_cases {b : Nat} (h : execBbRead b s = .next t) :
    (s.params.nb ≤ b ∧ t = s.raisedWith .invalidArgument) ∨
    (b < s.params.nb ∧ (s.buf b).length ≤ s.arg.toNat ∧ t = s.raisedWith .indexOutOfRange) ∨
    (b < s.params.nb ∧ s.arg.toNat < (s.buf b).length ∧
      t = (s.setResult (if (s.buf b).getD s.arg.toNat false then 1 else 0)).completed) := by
  simp only [execBbRead, bufferIndexOk, State.argIndex, not_decide_eq] at h
  by_cases hb : b < s.params.nb
  · by_cases hi : (s.buf b).length ≤ s.arg.toNat
    · rw [if_neg (not_not.mpr hb), if_pos hi] at h
      exact .inr (.inl ⟨hb, hi, (raise_next.mp h).symm⟩)
    · rw [if_neg (not_not.mpr hb), if_neg hi] at h
      exact .inr (.inr ⟨hb, by omega, (complete_next.mp h).symm⟩)
  · rw [if_pos hb] at h
    exact .inl ⟨by omega, (raise_next.mp h).symm⟩

theorem execGfMul_cases {a c : Byte} (h : execGfMul a c s = .next t) :
    t = (s.setResult (zext32 (gfProduct s.params.gfImpl a c))).completed := by
  exact (complete_next.mp h).symm

theorem execRsDiv_cases {n : Nat} (h : execRsDiv n s = .next t) :
    ((n = 0 ∨ s.params.nmax < n) ∧ t = s.raisedWith .invalidArgument) ∨
    ((1 ≤ n ∧ n ≤ s.params.nmax) ∧
      t = State.completed { s with
        div := buildDivisor s.params.gfImpl n ++ Config.freeBytes s.freeCount (s.params.nmax - n)
        rem := List.replicate n 0 ++ Config.freeBytes (s.freeCount + (s.params.nmax - n)) (s.params.nmax - n)
        deg := BitVec.ofNat 8 n
        freeCount := s.freeCount + 2 * (s.params.nmax - n) }) := by
  simp only [execRsDiv] at h
  split at h
  · left; simp_all
  · right
    refine ⟨by omega, ?_⟩
    exact (complete_next.mp h).symm

theorem execRsClr_cases (h : execRsClr s = .next t) :
    t = State.completed { s with rem := fileSetPrefix s.rem (List.replicate s.deg.toNat 0) } := by
  exact (complete_next.mp h).symm

theorem execRsFeed_cases {d : Byte} (h : execRsFeed d s = .next t) :
    (s.deg.toNat = 0 ∧ t = s.raisedWith .notReady) ∨
    (0 < s.deg.toNat ∧
      t = State.completed { s with
        rem := fileSetPrefix s.rem (feedRegister s.params.gfImpl s.deg.toNat s.div s.rem d) }) := by
  simp only [execRsFeed] at h
  split at h
  · left; simp_all
  · right
    refine ⟨by omega, ?_⟩
    exact (complete_next.mp h).symm

theorem execRsRdrem_cases {j : Nat} (h : execRsRdrem j s = .next t) :
    (s.deg.toNat ≤ j ∧ t = s.raisedWith .indexOutOfRange) ∨
    (j < s.deg.toNat ∧ t = (s.setResult (zext32 (fileGet s.rem j))).completed) := by
  simp only [execRsRdrem] at h
  split at h
  · left; simp_all
  · right; simp_all

theorem execRsRddiv_cases {j : Nat} (h : execRsRddiv j s = .next t) :
    (s.deg.toNat ≤ j ∧ t = s.raisedWith .indexOutOfRange) ∨
    (j < s.deg.toNat ∧ t = (s.setResult (zext32 (fileGet s.div j))).completed) := by
  simp only [execRsRddiv] at h
  split at h
  · left; simp_all
  · right; simp_all

end Sys2Proof.Machine
end

