-- ==== Sys2Proof/Laws/Decode.lean ====
section
/-! SUPPORT. Facts about the opcode map: which row a word can match, and what the decoder answers. -/

namespace Sys2Proof

/-- Every mask covers bits 31:24 (R78). -/
theorem mask_covers_opc : ∀ r ∈ opcodeMap, r.mask &&& 0xFF000000 = 0xFF000000 := by decide

/-- The rows' OPC values differ (R78). -/
theorem row_of_opc : ∀ r ∈ opcodeMap, ∀ r' ∈ opcodeMap,
    r.pattern &&& 0xFF000000 = r'.pattern &&& 0xFF000000 → r = r' := by decide

theorem opc_of_accepts {r : OpcodeRow} {w : Word} (hr : r ∈ opcodeMap) (h : r.accepts w = true) :
    w &&& 0xFF000000 = r.pattern &&& 0xFF000000 := by
  have h' : w &&& r.mask = r.pattern := by simpa [OpcodeRow.accepts] using h
  rw [← h', BitVec.and_assoc, mask_covers_opc r hr]

/-- At most one row accepts a word. -/
theorem row_unique {r r' : OpcodeRow} {w : Word} (hr : r ∈ opcodeMap) (hr' : r' ∈ opcodeMap)
    (h : r.accepts w = true) (h' : r'.accepts w = true) : r = r' :=
  row_of_opc r hr r' hr' ((opc_of_accepts hr h).symm.trans (opc_of_accepts hr' h'))

/-- A word that a row accepts decodes to that row's command. -/
theorem decode_of_accepts {r : OpcodeRow} {w : Word} (hr : r ∈ opcodeMap) (h : r.accepts w = true) :
    decode w = .ok (r.op.withFields w) := by
  unfold decode
  cases hf : opcodeMap.find? fun r => r.accepts w with
  | none => exact absurd h (by simpa using List.find?_eq_none.mp hf r hr)
  | some r' =>
    have ha : r'.accepts w = true := by simpa using List.find?_some hf
    rw [row_unique (List.mem_of_find?_eq_some hf) hr ha h]

/-- A word decodes to a command only through a row that accepts it. -/
theorem accepts_of_decode {w : Word} {i : Instr} (h : decode w = .ok i) :
    ∃ r ∈ opcodeMap, r.accepts w = true ∧ i = r.op.withFields w := by
  unfold decode at h
  cases hf : opcodeMap.find? fun r => r.accepts w with
  | none =>
    rw [hf] at h
    dsimp only at h
    split at h <;> cases h
  | some r =>
    rw [hf] at h
    have ha : r.accepts w = true := by simpa using List.find?_some hf
    exact ⟨r, List.mem_of_find?_eq_some hf, ha, (Except.ok.inj h).symm⟩

/-- A word that no row accepts is illegal. -/
theorem decode_error_iff {w : Word} : (∃ e, decode w = .error e) ↔ ∀ r ∈ opcodeMap, r.accepts w = false := by
  constructor
  · rintro ⟨e, he⟩ r hr
    by_contra hne
    rw [decode_of_accepts hr (by simpa using hne)] at he
    cases he
  · intro h
    cases hd : decode w with
    | error e => exact ⟨e, rfl⟩
    | ok i =>
      obtain ⟨r, hr, ha, _⟩ := accepts_of_decode hd
      exact absurd ha (by simp [h r hr])

end Sys2Proof
end

