-- ==== Sys2Proof/Laws/Flags.lean ====
section
/-! SUPPORT. What the STATUS updates leave in CODE, ERR and the reserved bits. -/

namespace Sys2Proof.Machine

variable (st : Word) (c : StatusCode) (e : Bool)

@[simp] theorem statusCode_setCode : statusCode (statusSetCode st c) = statusCodeBits c := by
  apply BitVec.eq_of_getLsbD_eq
  intro i hi
  have : i = 0 ∨ i = 1 ∨ i = 2 ∨ i = 3 := by omega
  rcases this with rfl | rfl | rfl | rfl <;> simp [statusCode, statusSetCode]

@[simp] theorem statusErr_setCode : statusErr (statusSetCode st c) = statusErr st := by
  simp [statusErr, statusSetCode]

@[simp] theorem statusErr_setErr : statusErr (statusSetErr st e) = e := by
  cases e <;> simp [statusErr, statusSetErr]

@[simp] theorem statusCode_setErr : statusCode (statusSetErr st e) = statusCode st := by
  apply BitVec.eq_of_getLsbD_eq
  intro i hi
  have : i = 0 ∨ i = 1 ∨ i = 2 ∨ i = 3 := by omega
  cases e <;> rcases this with rfl | rfl | rfl | rfl <;> simp [statusCode, statusSetErr]

/-- The code of an outcome is 0 exactly for OK. -/
@[simp] theorem statusCodeBits_eq_zero : statusCodeBits c = 0 ↔ c = .ok := by
  cases c <;> decide

theorem statusCodeBits_injective {c d : StatusCode} (h : statusCodeBits c = statusCodeBits d) : c = d := by
  cases c <;> cases d <;> first | rfl | exact absurd h (by decide)

theorem statusCodeBits_le : (statusCodeBits c).toNat ≤ 5 := by
  cases c <;> decide

/-- A completing command's STATUS as a word. -/
theorem statusSetCode_ok : statusSetCode st .ok = st &&& 0xFFFFFFF0 := by
  simp [statusSetCode, statusCodeBits]

/-- A raising command's STATUS as a word. -/
theorem statusSetErr_setCode : statusSetErr (statusSetCode st c) true =
    (st &&& 0xFFFFFFE0) ||| 0x00000010 ||| (statusCodeBits c).setWidth 32 := by
  apply BitVec.eq_of_getLsbD_eq
  intro i hi
  by_cases h4 : i = 4
  · subst h4; simp [statusSetErr, statusSetCode]
  · have : (0xFFFFFFF0#32).getLsbD i = (0xFFFFFFE0#32).getLsbD i := by
      revert h4; revert i; decide
    simp only [statusSetErr, statusSetCode, if_true, BitVec.getLsbD_or, BitVec.getLsbD_and, BitVec.ofNat_eq_ofNat, this]
    generalize (st.getLsbD i && _) = x
    generalize BitVec.getLsbD _ i = y
    cases x <;> simp [Bool.or_comm]

/-- A write of CODE keeps the reserved bits 31:5 at 0. -/
theorem statusSetCode_lt (h : st.toNat < 32) : (statusSetCode st c).toNat < 32 := by
  have h1 : (st &&& 0xFFFFFFF0).toNat < 2 ^ 5 := Nat.lt_of_le_of_lt (by rw [BitVec.toNat_and]; exact Nat.and_le_left) h
  have h2 : ((statusCodeBits c).setWidth 32).toNat < 2 ^ 5 := by cases c <;> decide
  simpa [statusSetCode] using Nat.or_lt_two_pow h1 h2

/-- A write of ERR keeps the reserved bits 31:5 at 0. -/
theorem statusSetErr_lt (h : st.toNat < 32) : (statusSetErr st e).toNat < 32 := by
  cases e
  · exact Nat.lt_of_le_of_lt (by simp only [statusSetErr, Bool.false_eq_true, if_false, BitVec.toNat_and]; exact Nat.and_le_left) h
  · simpa [statusSetErr] using Nat.or_lt_two_pow (n := 5) h (by decide : (16 : Nat) < 2 ^ 5)

end Sys2Proof.Machine
end

