-- ==== Sys2Proof/Laws/Galois.lean ====
section
/-! SUPPORT. The multiplier: the table entry is the loop's value (R135). -/

namespace Sys2Proof.Machine

theorem gfLookup_eq (x y : Byte) : gfLookup x y = gfMul x y := by
  have hx : x.toNat < 256 := x.isLt
  have hy : y.toNat < 256 := y.isLt
  simp [gfLookup, gfTable, List.getD_eq_getElem?_getD, hx, hy]

/-- GF_IMPL changes no value (R131). -/
@[simp] theorem gfProduct_eq (impl : Config.GfImpl) (x y : Byte) : gfProduct impl x y = gfMul x y := by
  cases impl
  · exact gfLookup_eq x y
  · rfl

end Sys2Proof.Machine
end

