-- ==== Sys2Proof/Laws/ReedSolomon.lean ====
section
/-! SUPPORT. The lengths and the entries of the divisor and of the fed register. -/

namespace Sys2Proof.Machine

@[simp] theorem length_divisorPass (impl : Config.GfImpl) (n : Nat) (root : Byte) (t : List Byte) :
    (divisorPass impl n root t).length = n := by
  simp [divisorPass]

theorem length_divisorPasses (impl : Config.GfImpl) (n k : Nat) (root : Byte) (t : List Byte) (h : t.length = n) :
    (divisorPasses impl n k root t).length = n := by
  induction k generalizing root t with
  | zero => exact h
  | succ k ih => exact ih _ _ (length_divisorPass impl n root t)

theorem length_buildDivisor (impl : Config.GfImpl) {n : Nat} (h : 0 < n) : (buildDivisor impl n).length = n :=
  length_divisorPasses impl n n _ _ (by simp; omega)

@[simp] theorem length_feedRegister (impl : Config.GfImpl) (n : Nat) (div rem : List Byte) (d : Byte) :
    (feedRegister impl n div rem d).length = n := by
  simp [feedRegister]

theorem fileGet_feedRegister (impl : Config.GfImpl) {n j : Nat} (h : j < n) (div rem : List Byte) (d : Byte) :
    fileGet (feedRegister impl n div rem d) j =
      (if j + 1 < n then fileGet rem (j + 1) else 0) ^^^ gfProduct impl (fileGet div j) (d ^^^ fileGet rem 0) := by
  simp [fileGet, feedRegister, List.getD_eq_getElem?_getD, h]

theorem fileGet_divisorPass (impl : Config.GfImpl) {n j : Nat} (h : j < n) (root : Byte) (t : List Byte) :
    fileGet (divisorPass impl n root t) j =
      if j + 1 < n then gfProduct impl (fileGet t j) root ^^^ fileGet t (j + 1) else gfProduct impl (fileGet t j) root := by
  simp [fileGet, divisorPass, List.getD_eq_getElem?_getD, h]

end Sys2Proof.Machine
end

