-- ==== Sys2Proof/Laws/Invariant.lean ====
section
/-! SUPPORT. Every shared operation keeps the invariant `State.Wf`. -/

namespace Sys2Proof.Machine

variable {s : State}

/-- A raise keeps the invariant. -/
theorem raisedWith_wf (c : StatusCode) (h : s.Wf) : (s.raisedWith c).Wf := by
  obtain ⟨hp, hn, hb, hd, hr, hg, hv, hs, -, -, -⟩ := h
  exact ⟨hp, hn, hb, hd, hr, hg, hv, statusSetErr_lt _ _ (statusSetCode_lt _ _ hs),
    by simp [statusCodeBits_le], by simp, by simp⟩

/-- A completion keeps the invariant. -/
theorem completed_wf (h : s.Wf) : s.completed.Wf := by
  obtain ⟨hp, hn, hb, hd, hr, hg, hv, hs, -, -, he⟩ := h
  exact ⟨hp, hn, hb, hd, hr, hg, hv, statusSetCode_lt _ _ hs, by simp [statusCodeBits_le], by simp [statusCodeBits],
    by simpa using he⟩

/-- A buffer write within BB_CAP keeps the invariant (R24). -/
theorem setBuf_wf {b : Nat} {bits : List Bool} (h : s.Wf) (hl : bits.length ≤ s.params.bbCap) : (s.setBuf b bits).Wf := by
  obtain ⟨hp, hn, hb, hd, hr, hg, hv, hs⟩ := h
  refine ⟨hp, by simpa using hn, fun x hx => ?_, hd, hr, hg, hv, hs⟩
  rcases List.mem_or_eq_of_mem_set hx with hx | rfl
  · exact hb x hx
  · exact hl

/-- A write of RESULT within its bound keeps the invariant (R184). -/
theorem setResult_wf {v : Word} (h : s.Wf) (hl : v.toNat ≤ max s.params.bbCap 255) : (s.setResult v).Wf := by
  obtain ⟨hp, hn, hb, hd, hr, hg, -, hs⟩ := h
  exact ⟨hp, hn, hb, hd, hr, hg, hl, hs⟩

/-- A write of the first entries of REM keeps the invariant (R29). -/
theorem setRem_wf {new : List Byte} (h : s.Wf) (hl : new.length ≤ s.params.nmax) :
    State.Wf { s with rem := fileSetPrefix s.rem new } := by
  obtain ⟨hp, hn, hb, hd, hr, hg, hv, hs⟩ := h
  exact ⟨hp, hn, hb, hd, (length_fileSetPrefix _ _ (hr ▸ hl)).trans hr, hg, hv, hs⟩

/-- A write of ARG keeps the invariant. -/
theorem setArg_wf (v : Word) (h : s.Wf) : State.Wf { s with arg := v } := h

/-- Every buffer is within BB_CAP (R24). -/
theorem buf_length_le (h : s.Wf) (b : Nat) : (s.buf b).length ≤ s.params.bbCap := by
  rcases buf_mem_or_nil s b with hm | hn
  · exact h.2.2.1 _ hm
  · simp [hn]

theorem zext32_le (x : Byte) : (zext32 x).toNat ≤ 255 := by
  have := x.isLt
  simp [zext32]; omega

end Sys2Proof.Machine
end

