-- ==== Sys2Proof/Laws/PerInstr.lean ====
section
/-! SUPPORT. Per command: the word that the formats R72 to R74 give it is accepted by its own row of R76. -/

namespace Sys2Proof.Laws

/-- The row of R76 that a command belongs to. -/
def opOf : Instr → Op
  | .nop => .nop
  | .stClr => .stClr
  | .bbClear _ => .bbClear
  | .bbAppend _ _ => .bbAppend
  | .bbAppendBuf _ _ => .bbAppendBuf
  | .bbClone _ _ => .bbClone
  | .bbLen _ => .bbLen
  | .bbRead _ => .bbRead
  | .gfMul _ _ => .gfMul
  | .rsDiv _ => .rsDiv
  | .rsClr => .rsClr
  | .rsFeed _ => .rsFeed
  | .rsRdrem _ => .rsRdrem
  | .rsRddiv _ => .rsRddiv

/-- A format B word under a mask that covers the reserved bits and whatever the mask selects of B, S and W. -/
theorem formatB_and (opc : BitVec 8) (b src w : Nat) (mask : Word) :
    formatB opc b src w &&& mask =
      (opc &&& mask.extractLsb' 24 8) ++ (BitVec.ofNat 4 b &&& mask.extractLsb' 20 4) ++
      (BitVec.ofNat 4 src &&& mask.extractLsb' 16 4) ++ 0#2 ++ (BitVec.ofNat 6 w &&& mask.extractLsb' 8 6) ++ 0#8 := by
  apply BitVec.eq_of_getLsbD_eq
  intro i hi
  simp only [formatB, BitVec.getLsbD_and, BitVec.getLsbD_append, BitVec.getLsbD_extractLsb']
  interval_cases i <;> simp

/-- A format G word under a mask. -/
theorem formatG_and (opc : BitVec 8) (a c : Byte) (mask : Word) :
    formatG opc a c &&& mask =
      (opc &&& mask.extractLsb' 24 8) ++ 0#8 ++ (a &&& mask.extractLsb' 8 8) ++ (c &&& mask.extractLsb' 0 8) := by
  apply BitVec.eq_of_getLsbD_eq
  intro i hi
  simp only [formatG, BitVec.getLsbD_and, BitVec.getLsbD_append, BitVec.getLsbD_extractLsb']
  interval_cases i <;> simp

namespace EncodeAccepted

/-- The word of the command is accepted by its row, and no operand can change that. -/
def Statement (i : Instr) : Prop := ∃ r ∈ opcodeMap, r.op = opOf i ∧ r.accepts (encode i) = true

theorem nop : Statement .nop := ⟨⟨.nop, 0x00000000, 0xFFFFFFFF⟩, by decide, rfl, by decide⟩

theorem stClr : Statement .stClr := ⟨⟨.stClr, 0x01000000, 0xFFFFFFFF⟩, by decide, rfl, by decide⟩

theorem bbClear (b : Nat) : Statement (.bbClear b) :=
  ⟨⟨.bbClear, 0x10000000, 0xFF0FFFFF⟩, by decide, rfl, by simp [OpcodeRow.accepts, encode, formatB_and]⟩

theorem bbAppend (b w : Nat) : Statement (.bbAppend b w) :=
  ⟨⟨.bbAppend, 0x11000000, 0xFF0FC0FF⟩, by decide, rfl, by simp [OpcodeRow.accepts, encode, formatB_and]⟩

theorem bbAppendBuf (b src : Nat) : Statement (.bbAppendBuf b src) :=
  ⟨⟨.bbAppendBuf, 0x12000000, 0xFF00FFFF⟩, by decide, rfl, by simp [OpcodeRow.accepts, encode, formatB_and]⟩

theorem bbClone (b src : Nat) : Statement (.bbClone b src) :=
  ⟨⟨.bbClone, 0x13000000, 0xFF00FFFF⟩, by decide, rfl, by simp [OpcodeRow.accepts, encode, formatB_and]⟩

theorem bbLen (b : Nat) : Statement (.bbLen b) :=
  ⟨⟨.bbLen, 0x14000000, 0xFF0FFFFF⟩, by decide, rfl, by simp [OpcodeRow.accepts, encode, formatB_and]⟩

theorem bbRead (b : Nat) : Statement (.bbRead b) :=
  ⟨⟨.bbRead, 0x15000000, 0xFF0FFFFF⟩, by decide, rfl, by simp [OpcodeRow.accepts, encode, formatB_and]⟩

theorem gfMul (a c : Byte) : Statement (.gfMul a c) :=
  ⟨⟨.gfMul, 0x20000000, 0xFFFF0000⟩, by decide, rfl, by simp [OpcodeRow.accepts, encode, formatG_and]⟩

theorem rsDiv (n : Nat) : Statement (.rsDiv n) :=
  ⟨⟨.rsDiv, 0x30000000, 0xFFFFFF00⟩, by decide, rfl, by simp [OpcodeRow.accepts, encode, formatG_and]⟩

theorem rsClr : Statement .rsClr := ⟨⟨.rsClr, 0x31000000, 0xFFFFFFFF⟩, by decide, rfl, by decide⟩

theorem rsFeed (d : Byte) : Statement (.rsFeed d) :=
  ⟨⟨.rsFeed, 0x32000000, 0xFFFFFF00⟩, by decide, rfl, by simp [OpcodeRow.accepts, encode, formatG_and]⟩

theorem rsRdrem (j : Nat) : Statement (.rsRdrem j) :=
  ⟨⟨.rsRdrem, 0x33000000, 0xFFFFFF00⟩, by decide, rfl, by simp [OpcodeRow.accepts, encode, formatG_and]⟩

theorem rsRddiv (j : Nat) : Statement (.rsRddiv j) :=
  ⟨⟨.rsRddiv, 0x34000000, 0xFFFFFF00⟩, by decide, rfl, by simp [OpcodeRow.accepts, encode, formatG_and]⟩

end EncodeAccepted

end Sys2Proof.Laws
end

