-- ==== Sys2Proof/Laws/Step.lean ====
section
/-! SUPPORT. What one step can do. -/

namespace Sys2Proof.Machine

variable {s t : State}

theorem place_eq_admitted {p : Config.Params} {addr width off : Nat} :
    place p addr width = .admitted off ↔
      addr = p.base + off ∧ off < 256 ∧ width = 4 ∧ off % 4 = 0 := by
  unfold place
  split
  · simp; omega
  · split
    · rename_i h1 h2
      constructor
      · intro h
        have := Place.admitted.inj h
        subst this
        exact ⟨by omega, by omega, h2.1, h2.2⟩
      · rintro ⟨rfl, h3, h4, h5⟩
        congr 1; omega
    · rename_i h1 h2
      simp only [reduceCtorEq, false_iff, not_and]
      rintro rfl h3 h4 h5
      exact h2 ⟨h4, by simpa using h5⟩

/-- A write through the window: CMD executes, ARG is set, every other offset ignores it (R54). -/
theorem writeWindow_cases {off : Nat} {v : Word} (h : writeWindow off v s = .next t) :
    (off = 0 ∧ executeWord v s = .next t) ∨ (off = 4 ∧ t = { s with arg := v }) ∨ (off ≠ 0 ∧ off ≠ 4 ∧ t = s) := by
  unfold writeWindow windowReg at h
  split at h <;> split at * <;> simp_all

/-- What one step can do. -/
theorem step_cases (h : step s = .next t) :
    (s.pending = [] ∧ t = s) ∨
    (∃ rest, s.pending = .reset :: rest ∧ t = applyReset { s with pending := rest }) ∨
    (∃ rest off v, s.pending = .access (.write (s.params.base + off) 4 v) :: rest ∧ off < 256 ∧ off % 4 = 0 ∧
      writeWindow off v { s with pending := rest, index := s.index + 1 } = .next t) ∨
    (∃ rest off, s.pending = .access (.read (s.params.base + off) 4) :: rest ∧ off < 256 ∧ off % 4 = 0 ∧
      t = { s with pending := rest, index := s.index + 1, reads := s.reads ++ [readWindow off s] }) := by
  unfold step at h
  split at h
  · left; simp_all
  · rename_i e rest hp
    right
    cases e with
    | reset => left; exact ⟨rest, hp, by simpa [performEvent, eq_comm] using h⟩
    | access a =>
      right
      cases a with
      | write addr width v =>
        left
        simp only [performEvent, performAccess] at h
        split at h
        · rename_i off hpl
          obtain ⟨rfl, h1, rfl, h2⟩ := place_eq_admitted.mp hpl
          exact ⟨rest, off, v, hp, h1, h2, h⟩
        · cases h
        · cases h
      | read addr width =>
        right
        simp only [performEvent, performAccess] at h
        split at h
        · rename_i off hpl
          obtain ⟨rfl, h1, rfl, h2⟩ := place_eq_admitted.mp hpl
          exact ⟨rest, off, hp, h1, h2, by simpa [readWindow, eq_comm] using h⟩
        · cases h
        · cases h

end Sys2Proof.Machine
end

