-- ==== Sys2Proof/Machine/Assembly.lean ====
section
/-! DEFINITION. The host's assembly notation (30_encoding.md R81), its pseudo-instructions (R82), and the list of accesses a
host program stands for (70_reset_and_hazards.md R250). Text is a list of characters. -/

namespace Sys2Proof.Machine

/-- The registers that `RD` names (R81). -/
inductive ReadReg where
  | result | status | config | capacity | arg
  deriving DecidableEq, Repr

/-- One item of a host program (R81). -/
inductive AsmItem where
  /-- `WR ARG, v`. -/
  | wrArg (v : Word)
  /-- `WR CMD, w`: a command word given as a number, the form 95_test_vectors.md P3 uses for an illegal word. -/
  | wrCmd (w : Word)
  /-- `RD` of a register. -/
  | rd (r : ReadReg)
  /-- A command line. -/
  | command (i : Instr)
  deriving DecidableEq, Repr

/-- The window offset of a register that `RD` names (R51). -/
def readRegOffset (r : ReadReg) : Nat :=
  match r with
  | .arg => 0x04
  | .result => 0x08
  | .status => 0x0C
  | .config => 0x10
  | .capacity => 0x14

/-- The access an item is, for a window at `base` (R81). -/
def AsmItem.access (base : Nat) (item : AsmItem) : Access :=
  match item with
  | .wrArg v => .write (base + 0x04) 4 v
  | .wrCmd w => .write (base + 0x00) 4 w
  | .rd r => .read (base + readRegOffset r) 4
  | .command i => .write (base + 0x00) 4 (encode i)

/-- A host program as the events of its accesses, in order. -/
def programEvents (base : Nat) (items : List AsmItem) : List Event :=
  items.map fun item => .access (item.access base)

/-! ### Pseudo-instructions (R82) -/

/-- `BB_APPENDI bB, W, v`. -/
def expandBbAppendI (b w : Nat) (v : Word) : List AsmItem := [.wrArg v, .command (.bbAppend b w)]

/-- `BB_APPENDBYTE bB, v`. -/
def expandBbAppendByte (b : Nat) (v : Word) : List AsmItem := [.wrArg v, .command (.bbAppend b 8)]

/-- `BB_READI bB, i`. -/
def expandBbReadI (b : Nat) (i : Word) : List AsmItem := [.wrArg i, .command (.bbRead b)]

/-- `GF_SQR A`. -/
def expandGfSqr (a : Byte) : List AsmItem := [.command (.gfMul a a)]

/-- `RS_FEEDS c0, …, ck`. -/
def expandRsFeeds (data : List Byte) : List AsmItem := data.map fun d => .command (.rsFeed d)

/-- `RS_BLOCK n, d0, …, dk`. -/
def expandRsBlock (n : Nat) (data : List Byte) : List AsmItem := .command (.rsDiv n) :: expandRsFeeds data

/-- `RS_READOUT n`: the indices 0 to n-1. R82 gives no range of n; for n = 0 this is no item at all, and `lineParsers` takes n
from 0 to 255 (DESIGN CHOICE, notes/assumptions/17.md). -/
def expandRsReadout (n : Nat) : List AsmItem :=
  (List.range n).flatMap fun j => [.command (.rsRdrem j), .rd .result]

/-! ### Text -/

/-- Blank characters. -/
def isBlank (c : Char) : Bool := c == ' ' || c == '\t'

/-- Drop blanks at both ends. -/
def trim (cs : List Char) : List Char := ((cs.dropWhile isBlank).reverse.dropWhile isBlank).reverse

/-- Cut at every `,`. -/
def splitCommas : List Char → List (List Char)
  | [] => [[]]
  | c :: cs =>
    if c = ',' then [] :: splitCommas cs
    else
      match splitCommas cs with
      | [] => [[c]]
      | part :: parts => (c :: part) :: parts

/-- A decimal digit. -/
def decDigit (c : Char) : Option Nat :=
  if '0' ≤ c ∧ c ≤ '9' then some (c.toNat - '0'.toNat) else none

/-- A hexadecimal digit. -/
def hexDigit (c : Char) : Option Nat :=
  if 'a' ≤ c ∧ c ≤ 'f' then some (c.toNat - 'a'.toNat + 10)
  else if 'A' ≤ c ∧ c ≤ 'F' then some (c.toNat - 'A'.toNat + 10)
  else decDigit c

/-- A numeral with at least one digit. -/
def numeral (base : Nat) (digit : Char → Option Nat) (cs : List Char) : Option Nat :=
  if cs.isEmpty then none
  else cs.foldl (fun acc c => acc.bind fun n => (digit c).map fun d => n * base + d) (some 0)

/-- A decimal or `0x` hexadecimal number (R81). -/
def parseNumber (cs : List Char) : Option Nat :=
  match cs with
  | '0' :: 'x' :: rest => numeral 16 hexDigit rest
  | _ => numeral 10 decDigit cs

/-- A number below `bound`: one that its field can hold. -/
def parseBelow (bound : Nat) (cs : List Char) : Option Nat :=
  (parseNumber cs).bind fun n => if n < bound then some n else none

/-- A buffer, `b0` to `b15` (R81). -/
def parseBuffer (cs : List Char) : Option Nat :=
  match cs with
  | 'b' :: rest => (numeral 10 decDigit rest).bind fun n => if n < 16 then some n else none
  | _ => none

/-- A byte operand. -/
def parseByte (cs : List Char) : Option Byte := (parseBelow 256 cs).map fun n => BitVec.ofNat 8 n

/-- A 32-bit operand. -/
def parseWord (cs : List Char) : Option Word := (parseBelow (2 ^ 32) cs).map fun n => BitVec.ofNat 32 n

/-- All of a list of byte operands. -/
def parseBytes : List (List Char) → Option (List Byte)
  | [] => some []
  | cs :: rest => (parseByte cs).bind fun d => (parseBytes rest).map fun ds => d :: ds

/-- A command with no operand. -/
def parseNone (i : Instr) (ops : List (List Char)) : Option (List AsmItem) :=
  match ops with
  | [] => some [.command i]
  | _ => none

/-- A command on one buffer. -/
def parseBuf1 (f : Nat → Instr) (ops : List (List Char)) : Option (List AsmItem) :=
  match ops with
  | [b] => (parseBuffer b).map fun b => [.command (f b)]
  | _ => none

/-- A command on two buffers, destination first. -/
def parseBuf2 (f : Nat → Nat → Instr) (ops : List (List Char)) : Option (List AsmItem) :=
  match ops with
  | [b, src] => (parseBuffer b).bind fun b => (parseBuffer src).map fun src => [.command (f b src)]
  | _ => none

/-- A command on one number of 8 bits. -/
def parseNum1 (f : Nat → List AsmItem) (ops : List (List Char)) : Option (List AsmItem) :=
  match ops with
  | [c] => (parseBelow 256 c).map f
  | _ => none

/-- `BB_APPEND bB, W`. -/
def parseBbAppend (ops : List (List Char)) : Option (List AsmItem) :=
  match ops with
  | [b, w] => (parseBuffer b).bind fun b => (parseBelow 64 w).map fun w => [.command (.bbAppend b w)]
  | _ => none

/-- `GF_MUL A, C`. -/
def parseGfMul (ops : List (List Char)) : Option (List AsmItem) :=
  match ops with
  | [a, c] => (parseByte a).bind fun a => (parseByte c).map fun c => [.command (.gfMul a c)]
  | _ => none

/-- `WR ARG, v` and `WR CMD, w`. -/
def parseWr (ops : List (List Char)) : Option (List AsmItem) :=
  match ops with
  | [r, v] =>
    if r = "ARG".toList then (parseWord v).map fun v => [.wrArg v]
    else if r = "CMD".toList then (parseWord v).map fun v => [.wrCmd v]
    else none
  | _ => none

/-- `RD` of a register. -/
def parseRd (ops : List (List Char)) : Option (List AsmItem) :=
  match ops with
  | [r] =>
    if r = "RESULT".toList then some [.rd .result]
    else if r = "STATUS".toList then some [.rd .status]
    else if r = "CONFIG".toList then some [.rd .config]
    else if r = "CAPACITY".toList then some [.rd .capacity]
    else if r = "ARG".toList then some [.rd .arg]
    else none
  | _ => none

/-- `BB_APPENDI bB, W, v`. -/
def parseBbAppendI (ops : List (List Char)) : Option (List AsmItem) :=
  match ops with
  | [b, w, v] =>
    (parseBuffer b).bind fun b => (parseBelow 64 w).bind fun w => (parseWord v).map fun v => expandBbAppendI b w v
  | _ => none

/-- `BB_APPENDBYTE bB, v` and `BB_READI bB, i`: a buffer and a 32-bit number. -/
def parseBufWord (f : Nat → Word → List AsmItem) (ops : List (List Char)) : Option (List AsmItem) :=
  match ops with
  | [b, v] => (parseBuffer b).bind fun b => (parseWord v).map fun v => f b v
  | _ => none

/-- `RS_FEEDS c0, …, ck`: at least one byte. -/
def parseRsFeeds (ops : List (List Char)) : Option (List AsmItem) :=
  if ops.isEmpty then none else (parseBytes ops).map expandRsFeeds

/-- `RS_BLOCK n, d0, …, dk`: a degree and at least one byte. -/
def parseRsBlock (ops : List (List Char)) : Option (List AsmItem) :=
  match ops with
  | n :: d :: ds => (parseBelow 256 n).bind fun n => (parseBytes (d :: ds)).map fun data => expandRsBlock n data
  | _ => none

/-- The line heads of R81 and R82. That the n of RS_READOUT is a number below 256 is this model's choice (DESIGN CHOICE,
notes/assumptions/17.md). -/
def lineParsers : List (List Char × (List (List Char) → Option (List AsmItem))) :=
  [ ("WR".toList, parseWr),
    ("RD".toList, parseRd),
    ("NOP".toList, parseNone .nop),
    ("ST_CLR".toList, parseNone .stClr),
    ("BB_CLEAR".toList, parseBuf1 .bbClear),
    ("BB_APPEND".toList, parseBbAppend),
    ("BB_APPENDBUF".toList, parseBuf2 .bbAppendBuf),
    ("BB_CLONE".toList, parseBuf2 .bbClone),
    ("BB_LEN".toList, parseBuf1 .bbLen),
    ("BB_READ".toList, parseBuf1 .bbRead),
    ("GF_MUL".toList, parseGfMul),
    ("RS_DIV".toList, parseNum1 fun n => [.command (.rsDiv n)]),
    ("RS_CLR".toList, parseNone .rsClr),
    ("RS_FEED".toList, parseNum1 fun n => [.command (.rsFeed (BitVec.ofNat 8 n))]),
    ("RS_RDREM".toList, parseNum1 fun n => [.command (.rsRdrem n)]),
    ("RS_RDDIV".toList, parseNum1 fun n => [.command (.rsRddiv n)]),
    ("BB_APPENDI".toList, parseBbAppendI),
    ("BB_APPENDBYTE".toList, parseBufWord expandBbAppendByte),
    ("BB_READI".toList, parseBufWord expandBbReadI),
    ("GF_SQR".toList, parseNum1 fun n => expandGfSqr (BitVec.ofNat 8 n)),
    ("RS_FEEDS".toList, parseRsFeeds),
    ("RS_BLOCK".toList, parseRsBlock),
    ("RS_READOUT".toList, parseNum1 expandRsReadout) ]

/-- One line: `;` starts a comment, a blank line is no item, and `none` is a line that R81 and R82 do not allow. -/
def parseLine (cs : List Char) : Option (List AsmItem) :=
  let text := trim (cs.takeWhile fun c => c != ';')
  if text.isEmpty then some []
  else
    let head := text.takeWhile fun c => !isBlank c
    let rest := trim (text.drop head.length)
    let ops := if rest.isEmpty then [] else (splitCommas rest).map trim
    (lineParsers.lookup head).bind fun parse => parse ops

/-- A host program in text, one item a line. -/
def assemble : List (List Char) → Option (List AsmItem)
  | [] => some []
  | line :: lines => (parseLine line).bind fun items => (assemble lines).map fun rest => items ++ rest

end Sys2Proof.Machine
end

