-- ==== Sys2Proof/Tests/Slice0.lean ====
section
/-! SUPPORT. Tests. Expected values come from the spec: 30_encoding.md R83 and 95_test_vectors.md (the vector's name stands in
the test's comment). Each `witness_<Name>` shows values that meet the hypotheses of the statement of that name together. -/

namespace Sys2Proof.Tests

open Sys2Proof Sys2Proof.Machine

/-! ### Small states -/

/-- An instance of 95_test_vectors.md V-BB8, with a window base of its own. -/
def tiny : Config.Params where
  nb := 4
  bbCap := 8
  nmax := 7
  gfImpl := .bitserial
  base := 0x40000100

/-- Reset state of `tiny` with the given buffers, ARG and STATUS. -/
def bank (bufs : List (List Bool)) (arg status : Word) : State :=
  { State.resetOf tiny with bufs := bufs, arg := arg, status := status }

/-- A state with DEG = 3, DIV = 07 0E 08 (V-RS3) and the given first entries of REM. -/
def rs (r0 r1 r2 : Byte) : State :=
  { State.resetOf tiny with deg := 3, div := [0x07, 0x0E, 0x08, 0, 0, 0, 0], rem := [r0, r1, r2, 0, 0, 0, 0] }

/-- What a test looks at in an outcome. -/
def look {α : Type} (f : State → α) (r : Result) : Option α :=
  match r with
  | .next t => some (f t)
  | .fault _ => none
  | .refused _ => none

/-! ### WellFormed: each check refuses an ill-formed term -/

theorem test_wf_buffer : [Instr.bbClear 16, .bbAppend 16 8, .bbAppendBuf 16 0, .bbClone 16 0, .bbLen 16, .bbRead 16].all
    (fun i => !i.wellFormed) = true := by decide

theorem test_wf_source : [Instr.bbAppendBuf 0 16, .bbClone 0 16].all (fun i => !i.wellFormed) = true := by decide

theorem test_wf_width : (Instr.bbAppend 0 64).wellFormed = false := by decide

theorem test_wf_byte : [Instr.rsDiv 256, .rsRdrem 256, .rsRddiv 256].all (fun i => !i.wellFormed) = true := by decide

theorem test_wf_accepts : [Instr.bbAppend 15 63, .bbClone 15 15, .rsDiv 255, .rsRdrem 255, .gfMul 0xFF 0xFF].all
    Instr.wellFormed = true := by decide

/-! ### Decode: the words of R83, one for each command -/

theorem test_decode_nop : decode 0x00000000 = .ok .nop := by decide
theorem test_decode_stClr : decode 0x01000000 = .ok .stClr := by decide
theorem test_decode_bbClear : decode 0x10200000 = .ok (.bbClear 2) := by decide
theorem test_decode_bbAppend : decode 0x11100800 = .ok (.bbAppend 1 8) := by decide
theorem test_decode_bbAppendBuf : decode 0x12020000 = .ok (.bbAppendBuf 0 2) := by decide
theorem test_decode_bbClone : decode 0x13300000 = .ok (.bbClone 3 0) := by decide
theorem test_decode_bbLen : decode 0x14100000 = .ok (.bbLen 1) := by decide
theorem test_decode_bbRead : decode 0x15900000 = .ok (.bbRead 9) := by decide
theorem test_decode_gfMul : decode 0x200053CA = .ok (.gfMul 0x53 0xCA) := by decide
theorem test_decode_rsDiv : decode 0x3000000A = .ok (.rsDiv 10) := by decide
theorem test_decode_rsClr : decode 0x31000000 = .ok .rsClr := by decide
theorem test_decode_rsFeed : decode 0x32000020 = .ok (.rsFeed 0x20) := by decide
theorem test_decode_rsRdrem : decode 0x33000009 = .ok (.rsRdrem 9) := by decide
theorem test_decode_rsRddiv : decode 0x34000000 = .ok (.rsRddiv 0) := by decide

/-- V-SY3 to V-SY14, and R79's examples: illegal words, by reason. -/
theorem test_decode_reservedOpcode : ([0xFFFFFFFF, 0x02000000, 0x35000000] : List Word).map decode =
    [.error .reservedOpcode, .error .reservedOpcode, .error .reservedOpcode] := by decide

theorem test_decode_reservedBits : ([0x00000001, 0x11004000, 0x11001F01, 0x20FF0000, 0x10010000, 0x31000001, 0x300001FF,
    0x14010000, 0x13000001, 0x30000100] : List Word).all (fun w => decode w == .error .reservedBits) = true := by decide

theorem test_decodeTableWord : decodeTableWord 32 0x11003F00 = some (.bbAppend 0 63) := by decide

/-! ### Bit buffer commands -/

/-- V-BB20. -/
theorem test_bbClear : look State.bufs (exec (.bbClear 2) (bank [[], [], [true, true], []] 0 0)) = some [[], [], [], []] := by
  decide

/-- V-BB1. -/
theorem test_bbAppend_msbFirst :
    look (fun t => (t.buf 0, t.status)) (exec (.bbAppend 0 3) (bank [[], [], [], []] 5 0)) =
      some ([true, false, true], 0x00) := by decide

/-- V-BB9: the value check comes before the capacity check. -/
theorem test_bbAppend_valueBeforeCapacity : look (fun t => (t.bufs, t.status))
    (exec (.bbAppend 0 8) (bank [[true, false, true, true, false, true, true, true], [], [], []] 0x100 0)) =
      some ([[true, false, true, true, false, true, true, true], [], [], []], 0x11) := by decide

/-- V-BB11. -/
theorem test_bbAppendBuf_capacity : look (fun t => (t.buf 1, t.status))
    (exec (.bbAppendBuf 1 0) (bank [List.replicate 8 true, List.replicate 4 true, [], []] 0 0)) =
      some (List.replicate 4 true, 0x13) := by decide

/-- R103's example. -/
theorem test_bbAppendBuf : look State.bufs (exec (.bbAppendBuf 0 2) (bank [[true, false, true], [], [true, true], []] 0 0)) =
    some [[true, false, true, true, true], [], [true, true], []] := by decide

/-- R104's example. -/
theorem test_bbClone : look State.bufs
    (exec (.bbClone 3 0) (bank [[true, false, true, true, true], [], [], [false]] 0 0)) =
      some [[true, false, true, true, true], [], [], [true, false, true, true, true]] := by decide

/-- R105's example. -/
theorem test_bbLen : look State.result (exec (.bbLen 0) (bank [[true, false, true, true, true], [], [], []] 0 0)) =
    some 0x00000005 := by decide

/-- R106's example. -/
theorem test_bbRead : look State.result (exec (.bbRead 0) (bank [[true, false, true, true, true], [], [], []] 2 0)) =
    some 0x00000001 := by decide

/-- V-BB15: the index is unsigned. -/
theorem test_bbRead_lastIndex :
    look (fun t => (t.result, t.status)) (exec (.bbRead 0) (bank [[true], [], [], []] 0xFFFFFFFF 0x10)) =
      some (0, 0x12) := by decide

/-- R57: the first codeword of program P1, 0x20, from its bits. -/
theorem test_codeword : codeword [false, false, true, false, false, false, false, false, true] 0 = 0x20 := by decide

/-! ### Multiplier -/

/-- V-GF7. -/
theorem test_gfMul : look State.result (exec (.gfMul 0x53 0xCA) (bank [] 0 0)) = some 0x0000008F := by decide

/-- V-GF9, by the table of the default instance. -/
theorem test_gfMul_table : look State.result (exec (.gfMul 0xFF 0xFF) State.reset) = some 0x000000E2 := by decide +kernel

/-! ### Remainder unit -/

/-- V-RS4, and REM cleared. -/
theorem test_rsDiv : look (fun t => (t.div.take 7, t.rem.take 7, t.deg)) (exec (.rsDiv 7) (rs 1 2 3)) =
    some ([0x7F, 0x7A, 0x9A, 0xA4, 0x0B, 0x44, 0x75], List.replicate 7 0x00, 7) := by decide +kernel

/-- V-RS5, by the table of the default instance. -/
theorem test_rsDiv_table : look (fun t => t.div.take 10) (exec (.rsDiv 10) State.reset) =
    some [0xD8, 0xC2, 0x9F, 0x6F, 0xC7, 0x5E, 0x5F, 0x71, 0x9D, 0xC1] := by decide +kernel

/-- V-RS22. -/
theorem test_rsClr : look (fun t => (t.rem.take 3, t.div.take 3)) (exec .rsClr (rs 0x5C 0xEC 0xB0)) =
    some ([0x00, 0x00, 0x00], [0x07, 0x0E, 0x08]) := by decide

/-- R154's example, and the third row of V-RS8's trace. -/
theorem test_rsFeed : look (fun t => t.rem.take 3) (exec (.rsFeed 0x02) (rs 0x07 0x0E 0x08)) = some [0x15, 0x3E, 0x28] := by
  decide

/-- V-RS15. -/
theorem test_rsFeed_notReady : look State.status (exec (.rsFeed 0x20) State.reset) = some 0x15 := by decide

/-- R156's example. -/
theorem test_rsRdrem : look State.result (exec (.rsRdrem 1) (rs 0x5C 0xEC 0xB0)) = some 0x000000EC := by decide

/-- V-RS16. -/
theorem test_rsRdrem_reset : look State.status (exec (.rsRdrem 0) State.reset) = some 0x12 := by decide

/-- V-RS3. -/
theorem test_rsRddiv : look State.result (exec (.rsRddiv 1) (rs 0 0 0)) = some 0x0000000E := by decide

/-! ### Control commands -/

/-- V-SY1. -/
theorem test_nop : look State.status (exec .nop (bank [] 0 0x11)) = some 0x10 := by decide

/-- V-SY2. -/
theorem test_stClr : look State.status (exec .stClr (bank [] 0 0x12)) = some 0x00 := by decide

/-! ### The port -/

/-- V-SY13, through a step: an illegal word. -/
theorem test_step_illegal : look (fun t => (t.status, t.index)) (step ((bank [] 0 0).withFetchWord 32 0x14010000)) =
    some (0x14, 1) := by decide

/-- Program P4, line 12: the default instance's CONFIG. -/
theorem test_step_readConfig : look State.reads (step { State.reset with pending := [.access (.read 0x10 4)] }) =
    some [0x00001E04] := by decide

/-- R52: a byte access is refused. -/
theorem test_step_byteRead : step { State.reset with pending := [.access (.read 0x08 1)] } = .refused .accessNotAdmitted := rfl

/-- R230: a reset keeps nothing of the block's state. -/
theorem test_step_reset : look (fun t => (t.bufs, t.status, t.arg)) (step { bank [[true], [], [], []] 5 0x12 with pending := [.reset] }) =
    some ([[], [], [], []], 0, 0) := by decide

/-! ### Assembly -/

/-- R82: BB_APPENDI, and a comment (R81). -/
theorem test_parse_appendI : parseLine "  BB_APPENDI b1, 3, 0x5 ; three bits".toList =
    some (expandBbAppendI 1 3 5) := by decide

/-- R82: RS_READOUT. -/
theorem test_parse_readout : parseLine "RS_READOUT 2".toList =
    some [.command (.rsRdrem 0), .rd .result, .command (.rsRdrem 1), .rd .result] := by decide

/-- R81: a buffer above b15 and a width above 63 cannot be written. -/
theorem test_parse_refuses : (parseLine "BB_CLEAR b16".toList, parseLine "BB_APPEND b0, 64".toList) = (none, none) := by decide

/-! ### Witnesses: the hypotheses of each statement can be met -/

theorem witness_DecodeInvertsEncode : (Instr.bbAppend 15 63).wellFormed = true := by decide

theorem witness_EncodeInvertsDecode : decode 0x12020000 = .ok (.bbAppendBuf 0 2) := by decide

/-- One word below, at and above each boundary of the reserved ranges. -/
theorem witness_IllegalWordsRaiseIllegalCommand :
    (decode 0x02000000 = .error .reservedOpcode ∧ decode 0x0F000000 = .error .reservedOpcode ∧
      decode 0x16000000 = .error .reservedOpcode ∧ decode 0x1F000000 = .error .reservedOpcode ∧
      decode 0x21000000 = .error .reservedOpcode ∧ decode 0x2F000000 = .error .reservedOpcode ∧
      decode 0x35000000 = .error .reservedOpcode) ∧
    (decode 0x01000001 = .error .reservedBits ∧ decode 0x15010000 = .error .reservedBits ∧
      decode 0x34000100 = .error .reservedBits) := by decide

theorem witness_StepExecutesWrittenCommand :
    ({ bank [] 0 0 with pending := [.access (.write 0x40000100 4 0x01000000)] } : State).pending =
      .access (.write (bank [] 0 0).params.base 4 0x01000000) :: [] ∧
    decode 0x01000000 = .ok .stClr ∧ decode 0x02000000 = .error .reservedOpcode := by decide

theorem witness_IdleStepKeepsState : State.reset.pending = [] := rfl

/-- Reads and writes at the boundary offsets 0x00, 0x14, 0x18 and 0xFC. -/
theorem witness_RegisterWindowMap : tiny.Legal ∧ ∀ off ∈ [0x00, 0x04, 0x08, 0x0C, 0x10, 0x14, 0x18, 0xFC],
    off < 256 ∧ off % 4 = 0 ∧
    ({ bank [] 0 0 with pending := [.access (.read (0x40000100 + off) 4)] } : State).pending =
      .access (.read ((bank [] 0 0).params.base + off) 4) :: [] ∧
    ({ bank [] 0 0 with pending := [.access (.write (0x40000100 + off) 4 1)] } : State).pending =
      .access (.write ((bank [] 0 0).params.base + off) 4 1) :: [] := by decide

/-- A refused access of each kind and an admitted one, at the edges of the window. -/
theorem witness_OnlyAlignedWordAccessesAdmitted :
    tiny.base ≤ 0x400001FF ∧ 0x400001FF < tiny.base + 256 ∧ (0x400001FF - tiny.base) % 4 ≠ 0 ∧
    tiny.base ≤ 0x40000100 ∧ (2 : Nat) ≠ 4 ∧ (0x400001FC - tiny.base) % 4 = 0 ∧
    ({ bank [] 0 0 with pending := [.access (.write 0x400001FF 4 0)] } : State).pending =
      .access (.write 0x400001FF 4 0) :: [] := by decide

/-- The last address below the window and the first above it. -/
theorem witness_AccessOutsideWindowFaults : 0x400000FF < tiny.base ∧ tiny.base + 256 ≤ 0x40000200 ∧
    ({ bank [] 0 0 with pending := [.access (.read 0x400000FF 1)] } : State).pending = .access (.read 0x400000FF 1) :: [] ∧
    ({ bank [] 0 0 with pending := [.access (.write 0x40000200 4 0)] } : State).pending =
      .access (.write 0x40000200 4 0) :: [] := by decide

theorem witness_AccessIndexAdvancesByOne :
    (step { bank [] 0 0 with pending := [.access (.write 0x40000104 4 7)] } =
      .next { bank [] 7 0 with index := 1 }) ∧
    (step { bank [] 0 0 with pending := [.reset] } = .next (State.resetOf tiny)) ∧
    step (bank [] 0 0) = .next (bank [] 0 0) ∧ exec .nop (bank [] 0 0) = .next (bank [] 0 0) := ⟨rfl, rfl, rfl, rfl⟩

theorem witness_ResetGivesResetValues :
    ({ bank [] 1 2 with pending := [.reset] } : State).pending = .reset :: [] := rfl

theorem witness_CommandUsesLastArgWrite :
    ({ bank [] 0 0 with pending := [.access (.write 0x40000104 4 5), .access (.write 0x40000100 4 0x11000300)] } : State).pending
      = .access (.write ((bank [] 0 0).params.base + 4) 4 5) :: .access (.write (bank [] 0 0).params.base 4 0x11000300) :: [] ∧
    decode 0x11000300 = .ok (.bbAppend 0 3) := by decide

theorem witness_ResetStateIsWellFormed : tiny.Legal := by decide

/-- A well-formed state that a command changes; used for StepKeepsWellFormedState and StepKeepsParameters. -/
theorem witness_StepKeepsWellFormedState :
    State.Wf ((bank [[], [], [], []] 5 0).withFetchWord 32 0x11000300) ∧
    step ((bank [[], [], [], []] 5 0).withFetchWord 32 0x11000300) =
      .next { bank [[true, false, true], [], [], []] 5 0 with index := 1 } := by
  constructor
  · decide
  · rfl

theorem witness_StepKeepsParameters : step ((bank [] 0 0x10).withFetchWord 32 0) = .next { bank [] 0 0x10 with index := 1 } := rfl

theorem witness_DivHoldsGeneratorOfDegree :
    (rs 1 2 3).deg ≠ 0 ∧ 1 :: (rs 1 2 3).div.take (rs 1 2 3).deg.toNat = generator (rs 1 2 3).deg.toNat ∧
    step (rs 1 2 3) = .next (rs 1 2 3) := by
  refine ⟨by decide, by decide +kernel, rfl⟩

theorem witness_NopClearsCodeOnly : (bank [] 0 0x11).status = 0x00000011#32 ∧
    exec .nop (bank [] 0 0x11) = .next (bank [] 0 0x10) := ⟨rfl, rfl⟩

theorem witness_StClrClearsStatus :
    (exec .stClr (bank [] 0 0x12) = .next (bank [] 0 0x00) ∧ statusErr 0x12 = true ∧ statusErr 0x00 = false) ∧
    (nextIsReset { bank [] 0 0x12 with pending := [.reset] } = true ∧
      step { bank [] 0 0x12 with pending := [.reset] } = .next (State.resetOf tiny)) := ⟨⟨rfl, by decide⟩, rfl, rfl⟩

theorem witness_BbClearEmptiesBuffer :
    (0x10F00000#32 &&& 0xFF0FFFFF#32 = 0x10000000#32) ∧ 3 < (bank [] 0 0).params.nb ∧ (bank [] 0 0).params.nb ≤ 4 := by decide

/-- Width 31 with its largest value, a width of 32, a value one too large, and a buffer one bit too full. -/
theorem witness_BbAppendAppendsValue :
    (0x11F03F00#32 &&& 0xFF0FC0FF#32 = 0x11000000#32) ∧
    (3 < State.reset.params.nb ∧ (31 : Nat) ≤ 31 ∧ (0x7FFFFFFF#32).toNat < 2 ^ 31 ∧
      (State.reset.buf 3).length + 31 ≤ State.reset.params.bbCap) ∧
    State.reset.params.nb ≤ 4 ∧ 31 < 32 ∧ 2 ^ 3 ≤ (8#32).toNat ∧
    (bank [List.replicate 8 true] 0 0).params.bbCap < ((bank [List.replicate 8 true] 0 0).buf 0).length + 1 := by decide

theorem witness_BbAppendBufAppendsSource :
    (0x12FF0000#32 &&& 0xFF00FFFF#32 = 0x12000000#32) ∧
    (let s := bank [[true, true, true, true], [true, true, true, true], [true, true, true, true, true], []] 0 0
     (1 < s.params.nb ∧ (1 : Nat) ≠ 0 ∧ (s.buf 0).length + (s.buf 1).length ≤ s.params.bbCap) ∧ s.params.nb ≤ 4 ∧
     2 < s.params.nb ∧ (2 : Nat) ≠ 0 ∧ s.params.bbCap < (s.buf 0).length + (s.buf 2).length) := by decide

theorem witness_BbCloneCopiesSource :
    (0x133F0000#32 &&& 0xFF00FFFF#32 = 0x13000000#32) ∧ 3 < (bank [] 0 0).params.nb ∧ (bank [] 0 0).params.nb ≤ 4 := by decide

theorem witness_BbLenReturnsLength :
    (0x14F00000#32 &&& 0xFF0FFFFF#32 = 0x14000000#32) ∧ 3 < (bank [] 0 0).params.nb ∧ (bank [] 0 0).params.nb ≤ 4 := by decide

/-- The last bit, and the first index past it. -/
theorem witness_BbReadReturnsBit :
    (0x15F00000#32 &&& 0xFF0FFFFF#32 = 0x15000000#32) ∧
    (let s := bank [[false, true]] 1 0; 0 < s.params.nb ∧ (s.buf 0)[s.arg.toNat]? = some true ∧ s.params.nb ≤ 4) ∧
    (let s := bank [[false, true]] 2 0; (s.buf 0).length ≤ s.arg.toNat) := by decide

theorem witness_GfMulReturnsProduct : 0x2000FFFF#32 &&& 0xFFFF0000#32 = 0x20000000#32 := by decide

theorem witness_RsDivBuildsDivisor :
    (0x300000FF#32 &&& 0xFFFFFF00#32 = 0x30000000#32) ∧ (rs 1 2 3).params.Legal ∧
    (1 ≤ 7 ∧ 7 ≤ (rs 1 2 3).params.nmax) ∧ (rs 1 2 3).params.nmax < 8 := by decide

theorem witness_RsClrClearsRemainder :
    (rs 1 2 3).deg.toNat ≤ (rs 1 2 3).rem.length ∧ 2 < (rs 1 2 3).deg.toNat ∧ (bank [] 0 0).deg = 0 := by decide

theorem witness_RsFeedStepsDivision :
    (0x320000FF#32 &&& 0xFFFFFF00#32 = 0x32000000#32) ∧
    ((rs 1 2 3).deg ≠ 0 ∧ (rs 1 2 3).deg.toNat ≤ (rs 1 2 3).rem.length ∧ (rs 1 2 3).deg.toNat ≤ (rs 1 2 3).div.length) ∧
    (bank [] 0 0).deg = 0 := by decide

theorem witness_RsRdremReturnsRemainderByte :
    (0x330000FF#32 &&& 0xFFFFFF00#32 = 0x33000000#32) ∧
    (2 < (rs 1 2 3).deg.toNat ∧ (rs 1 2 3).rem[2]? = some 3) ∧ (rs 1 2 3).deg.toNat ≤ 3 := by decide

theorem witness_RsRddivReturnsDivisorCoefficient :
    (0x340000FF#32 &&& 0xFFFFFF00#32 = 0x34000000#32) ∧
    (2 < (rs 1 2 3).deg.toNat ∧ (rs 1 2 3).div[2]? = some 0x08) ∧ (rs 1 2 3).deg.toNat ≤ 3 := by decide

/-- A raise; used for RaiseChangesOnlyStatus and RepeatedRaiseIsTheSame. -/
theorem witness_RaiseChangesOnlyStatus :
    executeWord 0x14400000 (bank [] 0 0) = .next { bank [] 0 0x11 with raised := true } ∧ statusCode 0x11 ≠ 0 :=
  ⟨rfl, by decide⟩

theorem witness_RepeatedRaiseIsTheSame :
    executeWord 0xFFFFFFFF (bank [] 0 0x12) = .next { bank [] 0 0x14 with raised := true } ∧ statusCode 0x14 ≠ 0 :=
  ⟨rfl, by decide⟩

theorem witness_RaisedCodesAreThoseListed :
    exec (.rsFeed 1) (bank [] 0 0) = .next { bank [] 0 0x15 with raised := true } ∧
    StatusCode.notReady ∈ raisableCodes (.rsFeed 1) ∧ decode 0x31000001 = .error .reservedBits ∧
    executeWord 0x31000001 (bank [] 0 0) = .next { bank [] 0 0x14 with raised := true } :=
  ⟨rfl, by decide, by decide, rfl⟩

theorem witness_CompletionKeepsErr : exec .nop (bank [] 0 0x11) = .next (bank [] 0 0x10) ∧ statusCode 0x10 = 0 ∧
    exec .stClr (bank [] 0 0x11) = .next (bank [] 0 0x00) ∧ statusCode 0x00 = 0 := ⟨rfl, by decide, rfl, by decide⟩

/-- A step that sets ERR and one that clears it. -/
theorem witness_OnlyCommandsAndResetWriteStatus :
    (step ((bank [] 0 0).withFetchWord 32 0x14400000) = .next { bank [] 0 0x11 with index := 1, raised := true } ∧
      nextIsWrite ((bank [] 0 0).withFetchWord 32 0x14400000) 0 0x14400000 = true ∧
      statusErr 0 = false ∧ statusErr 0x11 = true) ∧
    step ((bank [] 0 0x11).withFetchWord 32 0x01000000) = .next { bank [] 0 0 with index := 1 } :=
  ⟨⟨rfl, by decide⟩, rfl⟩

theorem witness_FirstFailingCheckGivesCode :
    (exec (.bbAppend 0 1) (bank [List.replicate 8 true] 0 0) =
      .next { bank [List.replicate 8 true] 0 0x13 with raised := true }) ∧
    (exec (.bbAppendBuf 0 1) (bank [List.replicate 8 true, [true]] 0 0) =
      .next { bank [List.replicate 8 true, [true]] 0 0x13 with raised := true }) ∧
    (exec (.bbRead 0) (bank [[true]] 1 0) = .next { bank [[true]] 1 0x12 with raised := true }) ∧
    ((bank [] 0 0).params.nb = 4 ∧ exec (.bbAppend 9 40) (bank [] 0 0) = .next { bank [] 0 0x11 with raised := true }) ∧
    (((bank [List.replicate 8 true] 0x100 0).buf 0).length = (bank [List.replicate 8 true] 0x100 0).params.bbCap ∧
      exec (.bbAppend 0 8) (bank [List.replicate 8 true] 0x100 0) =
        .next { bank [List.replicate 8 true] 0x100 0x11 with raised := true }) :=
  ⟨rfl, rfl, rfl, ⟨rfl, rfl⟩, rfl, rfl⟩

theorem witness_UnraisedMarkMeansNoRaise :
    step ((bank [] 0 0).withFetchWord 32 0) = .next { bank [] 0 0 with index := 1 } ∧ (bank [] 0 0).raised = false ∧
    nextIsWrite ((bank [] 0 0).withFetchWord 32 0) 0 0 = true := ⟨rfl, rfl, by decide⟩

theorem witness_FiveCommandsWriteResult :
    exec (.bbLen 0) (bank [[true], [], [], []] 0 0) = .next ({ bank [[true], [], [], []] 0 0 with result := 1 }) ∧
    (bank [[true], [], [], []] 0 0).Wf ∧ (1 : Word) ≠ 0 := ⟨rfl, by decide, by decide⟩

theorem witness_ArgAndResultWriters :
    step { bank [] 0 0 with pending := [.access (.write 0x40000104 4 7)] } = .next { bank [] 7 0 with index := 1 } ∧
    (7 : Word) ≠ 0 ∧
    step ((bank [[true]] 0 0).withFetchWord 32 0x14000000) = .next { bank [[true]] 0 0 with index := 1, result := 1 } :=
  ⟨rfl, by decide, rfl⟩

theorem witness_RsRegisterWriters :
    nextIsReset ((rs 1 2 3).withFetchWord 32 0x30000001) = false ∧
    nextCommand ((rs 1 2 3).withFetchWord 32 0x30000001) = some (.rsDiv 1) ∧
    look (fun t => (t.deg, statusCode t.status)) (step ((rs 1 2 3).withFetchWord 32 0x30000001)) = some (1, 0) := by
  decide +kernel

theorem witness_BufferOnlyGrowsBetweenEmptyings :
    step ((bank [[true]] 0 0).withFetchWord 32 0x11000100) = .next { bank [[true, false]] 0 0 with index := 1 } ∧
    nextIsReset ((bank [[true]] 0 0).withFetchWord 32 0x11000100) = false ∧
    nextCommand ((bank [[true]] 0 0).withFetchWord 32 0x11000100) = some (.bbAppend 0 1) ∧
    emptiesBuffer (.bbAppend 0 1) 0 = false := ⟨rfl, rfl, by decide, rfl⟩

theorem witness_CommandsChangeOnlyDestinationBuffer :
    exec (.bbClone 1 0) (bank [[true], [], []] 0 0) = .next (bank [[true], [true], []] 0 0) ∧
    destinationBuffer (.bbClone 1 0) ≠ some 2 ∧ exec (.bbClone 0 0) (bank [[true]] 0 0) = .next (bank [[true]] 0 0) :=
  ⟨rfl, by decide, rfl⟩

/-- Used for AppendedBitsReadBackMsbFirst. -/
theorem witness_AppendedBitsReadBackMsbFirst :
    (bank [[true], [], [], []] 2 0).Wf ∧ 0 < (bank [[true], [], [], []] 2 0).params.nb ∧
    exec (.bbAppend 0 2) (bank [[true], [], [], []] 2 0) = .next (bank [[true, true, false], [], [], []] 2 0) ∧
    statusCode (bank [[true, true, false], [], [], []] 2 0).status = 0 := ⟨by decide, by decide, rfl, by decide⟩

theorem witness_AppendsConcatenatePieces :
    (bank [[], [true], [], []] 0 0).Wf ∧ 0 < (bank [[], [true], [], []] 0 0).params.nb ∧
    (bank [[], [true], [], []] 0 0).buf 0 = [] ∧
    AppendsComplete 0 [.value 2 2, .buffer 1] (bank [[], [true], [], []] 0 0)
      (bank [[true, false, true], [true], [], []] 2 0) [true, false, true] :=
  ⟨by decide, by decide, rfl, _, _, rfl, by decide, rfl, _, _, rfl, by decide, rfl, rfl, rfl⟩

theorem witness_AppendedByteIsCodeword :
    (bank [[], [], [], []] 0x20 0).Wf ∧ ((bank [[], [], [], []] 0x20 0).buf 0).length = 8 * 0 ∧
    exec (.bbAppend 0 8) (bank [[], [], [], []] 0x20 0) =
      .next (bank [[false, false, true, false, false, false, false, false], [], [], []] 0x20 0) ∧
    statusCode (bank [] 0x20 0).status = 0 := ⟨by decide, rfl, rfl, by decide⟩

theorem witness_GfImplChangesNoValue : exec .nop (bank [] 0 0) = .next (bank [] 0 0) := rfl

theorem witness_GfMulFieldLaws : (0xFF : Byte) ≠ 0 := by decide

theorem witness_AlphaPowersReachEveryElement : (0x8E : Byte) ≠ 0 := by decide

theorem witness_DivisorPassesBuildProductOfRoots : 1 + 1 < 3 ∧ 1 ≤ 3 := by decide

/-- Used for the three statements about feeding. -/
theorem witness_RemainderIsMessageModDivisor :
    ((rs 1 2 3).params.Legal ∧ 1 ≤ 7 ∧ 7 ≤ (rs 1 2 3).params.nmax) ∧ (rs 1 2 3).deg ≠ 0 ∧
    (rs 1 2 3).deg.toNat ≤ (rs 1 2 3).div.length ∧ (rs 1 2 3).deg.toNat ≤ (rs 1 2 3).rem.length := by decide

theorem witness_MessageWithParityDividesEvenly : (rs 1 2 3).deg ≠ 0 ∧
    (rs 1 2 3).deg.toNat ≤ (rs 1 2 3).div.length ∧ (rs 1 2 3).deg.toNat ≤ (rs 1 2 3).rem.length := by decide

theorem witness_RemainderIsLinear : (rs 1 2 3).deg ≠ 0 ∧ (rs 1 2 3).deg.toNat ≤ (rs 1 2 3).div.length ∧
    (rs 1 2 3).deg.toNat ≤ (rs 1 2 3).rem.length ∧ ([1, 2] : List Byte).length = ([3, 4] : List Byte).length := by decide

/-- Two states that differ in entries from DEG on only, each about to feed a byte. -/
theorem witness_UnspecifiedEntriesAreNeverRead :
    (let s := (rs 1 2 3).withFetchWord 32 0x32000001
     let s' := ({ rs 1 2 3 with div := [0x07, 0x0E, 0x08, 9, 9, 9, 9], rem := [1, 2, 3, 9, 9, 9, 9] } : State).withFetchWord
       32 0x32000001
     s.pending = s'.pending ∧ s.index = s'.index ∧ s.raised = s'.raised) ∧
    observe (rs 1 2 3) = observe { rs 1 2 3 with div := [0x07, 0x0E, 0x08, 9, 9, 9, 9], rem := [1, 2, 3, 9, 9, 9, 9] } ∧
    rs 1 2 3 ≠ { rs 1 2 3 with div := [0x07, 0x0E, 0x08, 9, 9, 9, 9], rem := [1, 2, 3, 9, 9, 9, 9] } := by decide

end Sys2Proof.Tests
end

section
/-! SUPPORT. The invariant `State.Wf` at reset. -/

namespace Sys2Proof.Machine

@[simp] theorem statusCode_zero : statusCode 0#32 = 0#4 := by decide

@[simp] theorem statusErr_zero : statusErr 0#32 = false := by decide

/-- STATUS 0 has code 0 and no error bit, so it asks nothing of the model's mark. -/
theorem statusWf_of_status_eq_zero {s : State} (h : s.status = 0) : s.StatusWf := by
  simp [State.StatusWf, h]

/-- Every buffer is empty after reset (R38). -/
theorem eq_nil_of_mem_resetOf_bufs {p : Config.Params} {bits : List Bool} (h : bits ∈ (State.resetOf p).bufs) :
    bits = [] :=
  List.eq_of_mem_replicate h

/-- Only the parameters' own ranges (R8) are left to ask of a reset state: its buffers are empty, its files have NMAX
entries, and its registers are 0. -/
theorem resetOf_wf {p : Config.Params} (hp : p.Legal) : (State.resetOf p).Wf := by
  refine ⟨hp, List.length_replicate, fun bits hb => ?_, List.length_replicate, List.length_replicate, Nat.zero_le _,
    Nat.zero_le _, statusWf_of_status_eq_zero rfl⟩
  simp [eq_nil_of_mem_resetOf_bufs hb]

/-- The default instance of R8 is within R8's ranges. -/
theorem default_legal : Config.Params.default.Legal := by decide

/-- Settles O14: the reset state of every legal instance is well formed, and the default instance is legal. -/
theorem resetStateIsWellFormed : Obligations.ResetStateIsWellFormed :=
  ⟨resetOf_wf default_legal, fun _ hp => resetOf_wf hp⟩

end Sys2Proof.Machine
end

section
/-! SUPPORT. What one command can do, shape by shape: the fourteen commands complete in eight ways, and every invariant of a
step is a case analysis over these. -/

namespace Sys2Proof.Machine

/-- The state that RS_DIV `n` leaves before `STATUS.CODE <- OK` (R151). -/
def State.loadDivisor (s : State) (n : Nat) : State :=
  { s with
    div := buildDivisor s.params.gfImpl n ++ Config.freeBytes s.freeCount (s.params.nmax - n)
    rem := List.replicate n 0 ++ Config.freeBytes (s.freeCount + (s.params.nmax - n)) (s.params.nmax - n)
    deg := BitVec.ofNat 8 n
    freeCount := s.freeCount + 2 * (s.params.nmax - n) }

/-- `Effect s i u`: command `i` can complete in `s`, and `u` is the state before `STATUS.CODE <- OK`. Commands of one shape share
a constructor, which keeps of the value written only what the invariants ask of it. -/
inductive Effect (s : State) : Instr → State → Prop where
  | nop : Effect s .nop s
  | clearErr : Effect s .stClr { s with status := statusSetErr s.status false }
  | clear (b : Nat) : Effect s (.bbClear b) (s.setBuf b [])
  | clone (b src : Nat) : Effect s (.bbClone b src) (s.setBuf b (s.buf src))
  | append {i : Instr} {b : Nat} {bits : List Bool} (dest : destinationBuffer i = some b)
      (keeps : emptiesBuffer i b = false) (fits : (s.buf b ++ bits).length ≤ s.params.bbCap) :
      Effect s i (s.setBuf b (s.buf b ++ bits))
  | result {i : Instr} {v : Word} (dest : destinationBuffer i = none)
      (bound : s.Wf → v.toNat ≤ max s.params.bbCap 255) : Effect s i (s.setResult v)
  | divisor {n : Nat} (pos : 1 ≤ n) (le : n ≤ s.params.nmax) : Effect s (.rsDiv n) (s.loadDivisor n)
  | remainder {i : Instr} {new : List Byte} (cmd : i = .rsClr ∨ ∃ d, i = .rsFeed d) (len : new.length = s.deg.toNat) :
      Effect s i { s with rem := fileSetPrefix s.rem new }

variable {s t u : State} {i : Instr}

/-- The length that BB_LEN returns is within RESULT's bound: taking 32 bits of it can only lower it (R184). -/
theorem length_buf_le_bound (b : Nat) (h : s.Wf) :
    (BitVec.ofNat 32 (s.buf b).length).toNat ≤ max s.params.bbCap 255 :=
  calc (BitVec.ofNat 32 (s.buf b).length).toNat
      ≤ (s.buf b).length := by rw [BitVec.toNat_ofNat]; exact Nat.mod_le _ _
    _ ≤ s.params.bbCap := buf_length_le h b
    _ ≤ max s.params.bbCap 255 := le_max_left _ _

theorem zext32_le_bound (x : Byte) : (zext32 x).toNat ≤ max s.params.bbCap 255 :=
  (zext32_le x).trans (le_max_right _ _)

theorem bit_le_bound (bit : Bool) : (if bit then 1 else 0 : Word).toNat ≤ max s.params.bbCap 255 := by
  refine le_trans ?_ (le_max_right _ _)
  cases bit <;> decide

/-- A command either raises, and then it only sets STATUS (R203), or completes with one of the effects above (R180). -/
theorem exec_cases (h : exec i s = .next t) :
    (∃ c, c ≠ .ok ∧ t = s.raisedWith c) ∨ ∃ u, Effect s i u ∧ t = u.completed := by
  cases i with
  | nop => exact .inr ⟨_, .nop, execNop_cases h⟩
  | stClr => exact .inr ⟨_, .clearErr, execStClr_cases h⟩
  | bbClear b =>
    obtain ⟨-, ht⟩ | ⟨-, ht⟩ := execBbClear_cases h
    · exact .inl ⟨_, by decide, ht⟩
    · exact .inr ⟨_, .clear b, ht⟩
  | bbAppend b w =>
    obtain ⟨-, ht⟩ | ⟨-, -, ht⟩ | ⟨-, hl, ht⟩ := execBbAppend_cases h
    · exact .inl ⟨_, by decide, ht⟩
    · exact .inl ⟨_, by decide, ht⟩
    · exact .inr ⟨_, .append rfl rfl (by simpa using hl), ht⟩
  | bbAppendBuf b src =>
    obtain ⟨-, ht⟩ | ⟨-, -, ht⟩ | ⟨-, hl, ht⟩ := execBbAppendBuf_cases h
    · exact .inl ⟨_, by decide, ht⟩
    · exact .inl ⟨_, by decide, ht⟩
    · exact .inr ⟨_, .append rfl rfl (by simpa using hl), ht⟩
  | bbClone b src =>
    obtain ⟨-, ht⟩ | ⟨-, ht⟩ := execBbClone_cases h
    · exact .inl ⟨_, by decide, ht⟩
    · exact .inr ⟨_, .clone b src, ht⟩
  | bbLen b =>
    obtain ⟨-, ht⟩ | ⟨-, ht⟩ := execBbLen_cases h
    · exact .inl ⟨_, by decide, ht⟩
    · exact .inr ⟨_, .result rfl (length_buf_le_bound b), ht⟩
  | bbRead b =>
    obtain ⟨-, ht⟩ | ⟨-, -, ht⟩ | ⟨-, -, ht⟩ := execBbRead_cases h
    · exact .inl ⟨_, by decide, ht⟩
    · exact .inl ⟨_, by decide, ht⟩
    · exact .inr ⟨_, .result rfl fun _ => bit_le_bound _, ht⟩
  | gfMul a c => exact .inr ⟨_, .result rfl fun _ => zext32_le_bound _, execGfMul_cases h⟩
  | rsDiv n =>
    obtain ⟨-, ht⟩ | ⟨⟨hpos, hle⟩, ht⟩ := execRsDiv_cases h
    · exact .inl ⟨_, by decide, ht⟩
    · exact .inr ⟨_, .divisor hpos hle, ht⟩
  | rsClr => exact .inr ⟨_, .remainder (.inl rfl) List.length_replicate, execRsClr_cases h⟩
  | rsFeed d =>
    obtain ⟨-, ht⟩ | ⟨-, ht⟩ := execRsFeed_cases h
    · exact .inl ⟨_, by decide, ht⟩
    · exact .inr ⟨_, .remainder (.inr ⟨d, rfl⟩) (length_feedRegister ..), ht⟩
  | rsRdrem j =>
    obtain ⟨-, ht⟩ | ⟨-, ht⟩ := execRsRdrem_cases h
    · exact .inl ⟨_, by decide, ht⟩
    · exact .inr ⟨_, .result rfl fun _ => zext32_le_bound _, ht⟩
  | rsRddiv j =>
    obtain ⟨-, ht⟩ | ⟨-, ht⟩ := execRsRddiv_cases h
    · exact .inl ⟨_, by decide, ht⟩
    · exact .inr ⟨_, .result rfl fun _ => zext32_le_bound _, ht⟩

/-! ### What no command touches, and what few commands touch -/

theorem Effect.params_eq (h : Effect s i u) : u.params = s.params := by cases h <;> rfl

theorem Effect.arg_eq (h : Effect s i u) : u.arg = s.arg := by cases h <;> rfl

/-- The host's list, its index and the values read are not RSENC's to change (R20). -/
theorem Effect.host_eq (h : Effect s i u) : u.index = s.index ∧ u.pending = s.pending ∧ u.reads = s.reads := by
  cases h <;> exact ⟨rfl, rfl, rfl⟩

/-- Only ST_CLR changes STATUS before the code is set (R182). -/
theorem Effect.status_eq (h : Effect s i u) : i = .stClr ∧ u.status = statusSetErr s.status false ∨ u.status = s.status := by
  cases h with
  | clearErr => exact .inl ⟨rfl, rfl⟩
  | _ => exact .inr rfl

/-- Only RS_DIV changes DEG and DIV. -/
theorem Effect.divisor_eq (h : Effect s i u) :
    (∃ n, i = .rsDiv n ∧ 1 ≤ n ∧ u = s.loadDivisor n) ∨ u.deg = s.deg ∧ u.div = s.div := by
  cases h with
  | divisor hpos hle => exact .inl ⟨_, rfl, hpos, rfl⟩
  | _ => exact .inr ⟨rfl, rfl⟩

/-- Only RS_DIV, RS_CLR and RS_FEED change REM. -/
theorem Effect.rem_eq (h : Effect s i u) :
    ((∃ n, i = .rsDiv n) ∨ i = .rsClr ∨ ∃ d, i = .rsFeed d) ∨ u.rem = s.rem := by
  cases h with
  | divisor hpos hle => exact .inl (.inl ⟨_, rfl⟩)
  | remainder cmd len => exact .inl (.inr cmd)
  | _ => exact .inr rfl

end Sys2Proof.Machine
end

section
/-! SUPPORT. What one step can do to the block: reset, a raise, a completing command, or nothing but a write of ARG. -/

namespace Sys2Proof.Machine

/-- The state in which an admitted access acts: the access is taken from the list and counted (R20). -/
def State.taken (s : State) (rest : List Event) : State := { s with pending := rest, index := s.index + 1 }

variable {s t u : State}

@[simp] theorem taken_deg (rest : List Event) : (s.taken rest).deg = s.deg := rfl
@[simp] theorem taken_div (rest : List Event) : (s.taken rest).div = s.div := rfl
@[simp] theorem taken_status (rest : List Event) : (s.taken rest).status = s.status := rfl

/-- Executing a word raises, or it completes the command that the word decodes to (R180). -/
theorem executeWord_cases {w : Word} (h : executeWord w s = .next t) :
    (∃ c, c ≠ .ok ∧ t = s.raisedWith c) ∨ ∃ i u, decode w = .ok i ∧ Effect s i u ∧ t = u.completed := by
  unfold executeWord at h
  split at h
  · exact .inl ⟨_, by decide, (raise_next.mp h).symm⟩
  · rename_i i hd
    obtain hr | ⟨u, he, ht⟩ := exec_cases h
    · exact .inl hr
    · exact .inr ⟨i, u, hd, he, ht⟩

theorem executeWord_of_decode {w : Word} {i : Instr} (h : decode w = .ok i) (s : State) : executeWord w s = exec i s := by
  simp [executeWord, h]

/-! ### The questions about the next event -/

theorem nextIsReset_iff : nextIsReset s = true ↔ ∃ rest, s.pending = .reset :: rest := by
  unfold nextIsReset
  split <;> simp_all

theorem nextIsWrite_iff {off : Nat} {v : Word} : nextIsWrite s off v = true ↔
    off < 256 ∧ off % 4 = 0 ∧ ∃ rest, s.pending = .access (.write (s.params.base + off) 4 v) :: rest := by
  unfold nextIsWrite
  split
  · rename_i addr width w rest hp
    simp only [Bool.and_eq_true, beq_iff_eq, place_eq_admitted, hp, List.cons.injEq, Event.access.injEq,
      Access.write.injEq, exists_and_left, exists_eq', and_true]
    tauto
  · rename_i hp
    simp only [Bool.false_eq_true, false_iff, not_and, not_exists]
    exact fun _ _ rest h => hp _ _ _ _ h

theorem nextCommand_iff {i : Instr} : nextCommand s = some i ↔ ∃ w, nextIsWrite s 0 w = true ∧ decode w = .ok i := by
  unfold nextCommand nextIsWrite
  split
  · rename_i addr width w rest hp
    by_cases hpl : place s.params addr width = .admitted 0
    · cases hd : decode w <;> simp [hpl, hd]
    · simp [hpl]
  · simp

/-- A step that takes a write to CMD executes the word written (R54). -/
theorem step_of_cmdWrite {w : Word} (hw : nextIsWrite s 0 w = true) : ∃ rest, step s = executeWord w (s.taken rest) := by
  obtain ⟨-, -, rest, hp⟩ := nextIsWrite_iff.mp hw
  refine ⟨rest, ?_⟩
  have hpl : place s.params (s.params.base + 0) 4 = .admitted 0 := place_eq_admitted.mpr ⟨rfl, by decide, rfl, rfl⟩
  simp only [step, hp, performEvent, performAccess, hpl]
  rfl

/-- A step whose next command is `i` executes `i`. -/
theorem step_of_nextCommand {i : Instr} (hi : nextCommand s = some i) : ∃ rest, step s = exec i (s.taken rest) := by
  obtain ⟨w, hw, hd⟩ := nextCommand_iff.mp hi
  obtain ⟨rest, hs⟩ := step_of_cmdWrite hw
  exact ⟨rest, hs.trans (executeWord_of_decode hd _)⟩

/-! ### The four shapes of a step -/

/-- `StepEffect s t`: what a step from `s` to `t` has done to the block. -/
inductive StepEffect (s : State) : State → Prop where
  | reset {rest : List Event} (next : nextIsReset s = true) : StepEffect s (applyReset { s with pending := rest })
  | raised {rest : List Event} {w : Word} {c : StatusCode} (next : nextIsWrite s 0 w = true) (ne : c ≠ .ok) :
      StepEffect s ((s.taken rest).raisedWith c)
  | completed {rest : List Event} {w : Word} {i : Instr} {u : State} (next : nextIsWrite s 0 w = true)
      (cmd : decode w = .ok i) (eff : Effect (s.taken rest) i u) : StepEffect s u.completed
  /-- Idling, a read, or a write to another offset than CMD's. -/
  | port {pending : List Event} {index : Nat} {arg : Word} {reads : List Word}
      (argWrite : arg = s.arg ∨ nextIsWrite s 4 arg = true) :
      StepEffect s { s with pending := pending, index := index, arg := arg, reads := reads }

theorem stepEffect_of_step (h : step s = .next t) : StepEffect s t := by
  obtain ⟨-, rfl⟩ | ⟨rest, hp, rfl⟩ | ⟨rest, off, v, hp, hlt, hal, hw⟩ | ⟨rest, off, -, -, -, rfl⟩ := step_cases h
  · exact .port (.inl rfl)
  · exact .reset (nextIsReset_iff.mpr ⟨rest, hp⟩)
  · have hnext : nextIsWrite s off v = true := nextIsWrite_iff.mpr ⟨hlt, hal, rest, hp⟩
    obtain ⟨rfl, hx⟩ | ⟨rfl, rfl⟩ | ⟨-, -, rfl⟩ := writeWindow_cases hw
    · obtain ⟨c, hc, rfl⟩ | ⟨i, u, hd, he, rfl⟩ := executeWord_cases hx
      · exact .raised (rest := rest) hnext hc
      · exact .completed (rest := rest) hnext hd he
    · exact .port (.inr hnext)
    · exact .port (.inl rfl)
  · exact .port (.inl rfl)

/-- The degree that RS_DIV's word carries fits its 8-bit field (R74). -/
theorem lt_of_decode_rsDiv {w : Word} {n : Nat} (h : decode w = .ok (.rsDiv n)) : n < 256 := by
  obtain ⟨r, -, -, hr⟩ := accepts_of_decode h
  cases hop : r.op <;> simp only [hop, Op.withFields, reduceCtorEq, Instr.rsDiv.injEq] at hr
  exact hr ▸ (fieldC w).isLt

end Sys2Proof.Machine
end

section
/-! SUPPORT. O15: every step keeps `State.Wf`. -/

namespace Sys2Proof.Machine

variable {s t u : State} {i : Instr}

theorem taken_wf (rest : List Event) (h : s.Wf) : (s.taken rest).Wf := h

/-- The reset input leaves a well-formed state: STATUS 0 asks nothing of the mark, which reset keeps. -/
theorem applyReset_wf (h : s.Wf) : (applyReset s).Wf := by
  obtain ⟨hp, -⟩ := h
  obtain ⟨-, hn, hb, hd, hr, hg, hv, -⟩ := resetOf_wf hp
  exact ⟨hp, hn, hb, hd, hr, hg, hv, statusWf_of_status_eq_zero rfl⟩

/-- RS_DIV fills both files to NMAX entries again, and its degree is within NMAX (R151). -/
theorem loadDivisor_wf {n : Nat} (h : s.Wf) (hpos : 1 ≤ n) (hle : n ≤ s.params.nmax) : (s.loadDivisor n).Wf := by
  obtain ⟨hp, hn, hb, -, -, -, hv, hs⟩ := h
  have hdeg : (BitVec.ofNat 8 n).toNat ≤ s.params.nmax := by
    rw [BitVec.toNat_ofNat]
    exact (Nat.mod_le _ _).trans hle
  refine ⟨hp, hn, hb, ?_, ?_, hdeg, hv, hs⟩
  · simp [State.loadDivisor, length_buildDivisor _ hpos, hle]
  · simp [State.loadDivisor, hle]

/-- ST_CLR clears ERR and CODE together, so no code is left without ERR (R182). -/
theorem clearErr_completed_wf (h : s.Wf) : (State.completed { s with status := statusSetErr s.status false }).Wf := by
  obtain ⟨hp, hn, hb, hd, hr, hg, hv, hs, -⟩ := h
  exact ⟨hp, hn, hb, hd, hr, hg, hv, statusSetCode_lt _ _ (statusSetErr_lt _ _ hs), by simp [statusCodeBits_le],
    by simp [statusCodeBits], by simp⟩

theorem Effect.completed_wf (he : Effect s i u) (h : s.Wf) : u.completed.Wf := by
  cases he with
  | nop => exact Machine.completed_wf h
  | clearErr => exact clearErr_completed_wf h
  | clear b => exact Machine.completed_wf (setBuf_wf h (Nat.zero_le _))
  | clone b src => exact Machine.completed_wf (setBuf_wf h (buf_length_le h src))
  | append dest keeps fits => exact Machine.completed_wf (setBuf_wf h fits)
  | result dest bound => exact Machine.completed_wf (setResult_wf h (bound h))
  | divisor hpos hle => exact Machine.completed_wf (loadDivisor_wf h hpos hle)
  | remainder cmd len =>
    have hdeg : s.deg.toNat ≤ s.params.nmax := by
      obtain ⟨-, -, -, -, -, hg, -⟩ := h
      exact hg
    exact Machine.completed_wf (setRem_wf h (len.trans_le hdeg))

/-- Settles O15: each of the four shapes of a step keeps the invariant. -/
theorem stepKeepsWellFormedState : Obligations.StepKeepsWellFormedState := by
  intro s t h hst
  cases stepEffect_of_step hst with
  | reset next => exact applyReset_wf h
  | @raised rest w c next ne => exact raisedWith_wf c (taken_wf rest h)
  | @completed rest w i u next cmd eff => exact eff.completed_wf (taken_wf rest h)
  | port argWrite => exact h

end Sys2Proof.Machine
end

section
/-! SUPPORT. O17: the passes of RS_DIV build the product of roots (R152). -/

namespace Sys2Proof.Machine

theorem gfMul_zero_left (a : Byte) : gfMul 0#8 a = 0#8 := by
  simp [gfMul, gfMulStep]

theorem length_mulLinear (p : List Byte) (a : Byte) : (mulLinear p a).length = p.length + 1 := by
  simp [mulLinear]

/-- Multiplying by `x + a` keeps the leading 1. -/
theorem mulLinear_one_cons (p : List Byte) (a : Byte) : mulLinear (1 :: p) a = 1 :: (mulLinear (1 :: p) a).tail := by
  simp [mulLinear]

theorem mulLinear_zero_cons (p : List Byte) (a : Byte) : mulLinear (0 :: p) a = 0 :: mulLinear p a := by
  simp [mulLinear, gfMul_zero_left]

/-- Leading zeros stay where they are. -/
theorem mulLinear_replicate_zero_append (m : Nat) (p : List Byte) (a : Byte) :
    mulLinear (List.replicate m 0 ++ p) a = List.replicate m 0 ++ mulLinear p a := by
  induction m with
  | zero => rfl
  | succ m ih => simp only [List.replicate_succ, List.cons_append, mulLinear_zero_cons, ih]

theorem length_generator (n : Nat) : (generator n).length = n + 1 := by
  induction n with
  | zero => rfl
  | succ n ih => rw [generator, length_mulLinear, ih]

/-- The product of roots is monic (R150). -/
theorem generator_eq_one_cons (n : Nat) : generator n = 1 :: (generator n).tail := by
  induction n with
  | zero => rfl
  | succ n ih =>
    rw [generator, ih]
    exact mulLinear_one_cons _ _

/-- One outer pass of R151 multiplies by `x + root` and drops the coefficient that leaves the register at its head. -/
theorem divisorPass_eq_tail_mulLinear (impl : Config.GfImpl) (root : Byte) (p : List Byte) :
    divisorPass impl p.length root p = (mulLinear p root).tail := by
  refine List.ext_getElem (by simp [length_mulLinear]) fun j hj _ => ?_
  have hj : j < p.length := by simpa using hj
  by_cases hlast : j + 1 < p.length
  · simp [divisorPass, mulLinear, fileGet, hj, hlast, BitVec.xor_comm]
  · have hlen : j + 1 = p.length := by omega
    simp [divisorPass, mulLinear, fileGet, hj, hlen]

/-- The register after `k` of the `n` passes: the coefficients of the product of the first `k` roots at its end, without the
leading 1 once that has left at the head (R152). -/
def passRegister (n k : Nat) : List Byte := (List.replicate (n - k) 0 ++ generator k).tail

theorem length_passRegister {n k : Nat} (h : k ≤ n) : (passRegister n k).length = n := by
  simp [passRegister, length_generator]; omega

theorem passRegister_of_lt {n k : Nat} (h : k < n) : passRegister n k = List.replicate (n - 1 - k) 0 ++ generator k := by
  obtain ⟨m, rfl⟩ : ∃ m, n = k + m + 1 := ⟨n - k - 1, by omega⟩
  rw [passRegister, show k + m + 1 - k = m + 1 by omega, show k + m + 1 - 1 - k = m by omega]
  rfl

theorem one_cons_passRegister_self (n : Nat) : 1 :: passRegister n n = generator n := by
  simpa [passRegister] using (generator_eq_one_cons n).symm

/-- Pass `k` leads from one register to the next (R152). -/
theorem divisorPass_passRegister (impl : Config.GfImpl) {n k : Nat} (h : k < n) :
    divisorPass impl n (alphaPow k) (passRegister n k) = passRegister n (k + 1) :=
  calc divisorPass impl n (alphaPow k) (passRegister n k)
      = (mulLinear (passRegister n k) (alphaPow k)).tail := by
        simpa only [length_passRegister h.le] using divisorPass_eq_tail_mulLinear impl (alphaPow k) (passRegister n k)
    _ = (List.replicate (n - 1 - k) 0 ++ generator (k + 1)).tail := by
        rw [passRegister_of_lt h, mulLinear_replicate_zero_append, generator]
    _ = passRegister n (k + 1) := by rw [passRegister, Nat.sub_sub, Nat.add_comm 1 k]

theorem divisorPasses_passRegister (impl : Config.GfImpl) {n : Nat} (k j : Nat) (h : j + k ≤ n) :
    divisorPasses impl n k (alphaPow j) (passRegister n j) = passRegister n (j + k) := by
  induction k generalizing j with
  | zero => rfl
  | succ k ih =>
    have hroot : gfProduct impl (alphaPow j) 0x02 = alphaPow (j + 1) := gfProduct_eq impl _ _
    rw [divisorPasses, divisorPass_passRegister impl (by omega), hroot, ih (j + 1) (by omega), Nat.add_right_comm,
      Nat.add_assoc]

/-- RS_DIV `n` builds the coefficients of the product of the first `n` roots below its leading 1 (R152). -/
theorem one_cons_buildDivisor (impl : Config.GfImpl) {n : Nat} (h : 1 ≤ n) : 1 :: buildDivisor impl n = generator n := by
  have hstart : List.replicate (n - 1) 0x00 ++ [0x01] = passRegister n 0 := (passRegister_of_lt h).symm
  have hrun : divisorPasses impl n n 0x01 (passRegister n 0) = passRegister n (0 + n) :=
    divisorPasses_passRegister impl n 0 (by omega)
  rw [buildDivisor, hstart, hrun, Nat.zero_add, one_cons_passRegister_self]

/-- `DIV` holds the product of roots of degree `DEG`, when `DEG` is not 0 (R27, R28). -/
def State.DivIsGenerator (s : State) : Prop := s.deg ≠ 0 → 1 :: s.div.take s.deg.toNat = generator s.deg.toNat

theorem loadDivisor_divIsGenerator {n : Nat} (s : State) (hpos : 1 ≤ n) (hlt : n < 256) :
    (s.loadDivisor n).DivIsGenerator := by
  intro _
  have hdeg : (BitVec.ofNat 8 n).toNat = n := Nat.mod_eq_of_lt hlt
  simpa [State.loadDivisor, hdeg, List.take_left' (length_buildDivisor _ hpos)] using one_cons_buildDivisor _ hpos

/-- Settles O17: only reset and RS_DIV change DEG or DIV; reset leaves DEG = 0, and RS_DIV builds the product. -/
theorem divHoldsGeneratorOfDegree : Obligations.DivHoldsGeneratorOfDegree := by
  refine ⟨fun h => absurd rfl h, fun s t (hs : s.DivIsGenerator) hst => show t.DivIsGenerator from ?_⟩
  cases stepEffect_of_step hst with
  | reset next => exact fun h => absurd rfl h
  | raised next ne => exact hs
  | completed next cmd eff =>
    obtain ⟨n, rfl, hpos, rfl⟩ | ⟨hdeg, hdiv⟩ := eff.divisor_eq
    · exact loadDivisor_divIsGenerator _ hpos (lt_of_decode_rsDiv cmd)
    · simpa [State.DivIsGenerator, hdeg, hdiv] using hs
  | port argWrite => exact hs

end Sys2Proof.Machine
end

section
/-! SUPPORT. O56: what no command reads. Two states with the same view run every command alike. -/

namespace Sys2Proof.Machine

/-- `s` and `s'` agree on all that the host can come to see: everything but the entries of DIV and REM from DEG on and the count
of free values (R28, R29). -/
structure SameView (s s' : State) : Prop where
  params : s.params = s'.params
  bufs : s.bufs = s'.bufs
  deg : s.deg = s'.deg
  div : s.div.take s.deg.toNat = s'.div.take s.deg.toNat
  rem : s.rem.take s.deg.toNat = s'.rem.take s.deg.toNat
  arg : s.arg = s'.arg
  result : s.result = s'.result
  status : s.status = s'.status
  raised : s.raised = s'.raised
  pending : s.pending = s'.pending
  index : s.index = s'.index
  reads : s.reads = s'.reads

/-- Two outcomes are alike: states of the same view, or the same stop. -/
inductive Alike : Result → Result → Prop where
  | next {t t' : State} (view : SameView t t') : Alike (.next t) (.next t')
  | fault (r : Fault) : Alike (.fault r) (.fault r)
  | refused (r : Refusal) : Alike (.refused r) (.refused r)

namespace Alike

variable {o : Result}

theorem exists_next {t : State} (h : Alike (.next t) o) : ∃ t', o = .next t' ∧ SameView t t' := by
  cases h with
  | next view => exact ⟨_, rfl, view⟩

theorem eq_fault {f : Fault} (h : Alike (.fault f) o) : o = .fault f := by
  cases h
  rfl

theorem eq_refused {r : Refusal} (h : Alike (.refused r) o) : o = .refused r := by
  cases h
  rfl

/-- The same check before outcomes that are alike. -/
theorem ite {p p' : Prop} [Decidable p] [Decidable p'] {a b a' b' : Result} (hp : p ↔ p') (ha : Alike a a')
    (hb : ¬p → Alike b b') : Alike (if p then a else b) (if p' then a' else b') := by
  by_cases h : p
  · rwa [if_pos h, if_pos (hp.mp h)]
  · rw [if_neg h, if_neg (mt hp.mpr h)]
    exact hb h

end Alike

theorem sameView_iff {s s' : State} : SameView s s' ↔
    observe s = observe s' ∧ s.pending = s'.pending ∧ s.index = s'.index ∧ s.raised = s'.raised := by
  constructor
  · intro h
    refine ⟨?_, h.pending, h.index, h.raised⟩
    simp [observe, h.params, h.bufs, h.div, h.rem, h.arg, h.result, h.status, h.reads, ← h.deg]
  · rintro ⟨ho, hp, hi, hr⟩
    simp only [observe, Observation.mk.injEq] at ho
    obtain ⟨hbufs, hdeg, hdiv, hrem, harg, hresult, hstatus, hparams, hreads⟩ := ho
    exact ⟨hparams, hbufs, hdeg, by rw [hdiv, hdeg], by rw [hrem, hdeg], harg, hresult, hstatus, hr, hp, hi, hreads⟩

namespace SameView

variable {s s' : State} (h : SameView s s')
include h

/-! ### What a command reads is the same in both states -/

theorem buf (b : Nat) : s.buf b = s'.buf b := by rw [State.buf, State.buf, h.bufs]

theorem bufferIndexOk (b : Nat) : bufferIndexOk s b = bufferIndexOk s' b := by
  rw [Machine.bufferIndexOk, Machine.bufferIndexOk, h.params]

theorem fileGet_div {j : Nat} (hj : j < s.deg.toNat) : fileGet s.div j = fileGet s'.div j := by
  rw [← fileGet_take hj, h.div, fileGet_take hj]

theorem fileGet_rem {j : Nat} (hj : j < s.deg.toNat) : fileGet s.rem j = fileGet s'.rem j := by
  rw [← fileGet_take hj, h.rem, fileGet_take hj]

/-- RS_FEED reads the entries below DEG only (R154). -/
theorem feedRegister (impl : Config.GfImpl) (d : Byte) :
    feedRegister impl s.deg.toNat s.div s.rem d = feedRegister impl s.deg.toNat s'.div s'.rem d := by
  refine List.map_congr_left fun j hj => ?_
  have hj : j < s.deg.toNat := List.mem_range.mp hj
  have hnext : (if j + 1 < s.deg.toNat then fileGet s.rem (j + 1) else 0x00) =
      if j + 1 < s.deg.toNat then fileGet s'.rem (j + 1) else 0x00 :=
    if_ctx_congr Iff.rfl h.fileGet_rem fun _ => rfl
  rw [hnext, h.fileGet_div hj, h.fileGet_rem (Nat.zero_lt_of_lt hj)]

/-- A read of the window shows no entry of DIV or REM (R51). -/
theorem readWindow (off : Nat) : readWindow off s = readWindow off s' := by
  simp only [Machine.readWindow, h.arg, h.result, h.status, h.params]

/-! ### The updates keep the view the same -/

theorem completed : SameView s.completed s'.completed :=
  { h with status := congrArg (statusSetCode · .ok) h.status }

theorem raisedWith (c : StatusCode) : SameView (s.raisedWith c) (s'.raisedWith c) :=
  { h with status := congrArg (fun st => statusSetErr (statusSetCode st c) true) h.status, raised := rfl }

theorem clearErr :
    SameView { s with status := statusSetErr s.status false } { s' with status := statusSetErr s'.status false } :=
  { h with status := congrArg (statusSetErr · false) h.status }

theorem setBuf (b : Nat) {bits bits' : List Bool} (hb : bits = bits') : SameView (s.setBuf b bits) (s'.setBuf b bits') :=
  { h with bufs := by simp [h.bufs, hb] }

theorem setResult {v v' : Word} (hv : v = v') : SameView (s.setResult v) (s'.setResult v') :=
  { h with result := hv }

theorem setArg (v : Word) : SameView { s with arg := v } { s' with arg := v } :=
  { h with arg := rfl }

/-- RS_DIV writes the entries below the new DEG alike, and they are the only ones in view. -/
theorem loadDivisor {n : Nat} (hpos : 1 ≤ n) : SameView (s.loadDivisor n) (s'.loadDivisor n) := by
  have hdeg : (BitVec.ofNat 8 n).toNat ≤ n := by
    rw [BitVec.toNat_ofNat]
    exact Nat.mod_le _ _
  refine { h with deg := rfl, div := ?_, rem := ?_ }
  · simp only [State.loadDivisor, h.params]
    rw [List.take_append_of_le_length (by rwa [length_buildDivisor _ hpos]),
      List.take_append_of_le_length (by rwa [length_buildDivisor _ hpos])]
  · simp only [State.loadDivisor]
    rw [List.take_append_of_le_length (by rwa [List.length_replicate]),
      List.take_append_of_le_length (by rwa [List.length_replicate])]

/-- A write of the first DEG entries of REM leaves all of REM that is in view alike. -/
theorem setRem {new new' : List Byte} (hnew : new = new') (hlen : new.length = s.deg.toNat) :
    SameView { s with rem := fileSetPrefix s.rem new } { s' with rem := fileSetPrefix s'.rem new' } := by
  subst hnew
  exact { h with rem := by simp only [← hlen, take_fileSetPrefix] }

/-! ### Commands -/

theorem raise (c : StatusCode) : Alike (raise c s) (raise c s') := .next (h.raisedWith c)

theorem complete : Alike (complete s) (complete s') := .next h.completed

end SameView

/-- Every command runs alike from two states with the same view. -/
theorem exec_alike (i : Instr) {s s' : State} (h : SameView s s') : Alike (exec i s) (exec i s') := by
  cases i with
  | nop => exact h.complete
  | stClr => exact h.clearErr.complete
  | bbClear b => exact .ite (by rw [h.bufferIndexOk]) (h.raise _) fun _ => (h.setBuf b rfl).complete
  | bbAppend b w =>
    refine .ite (by rw [h.bufferIndexOk]) (h.raise _) fun _ => .ite Iff.rfl (h.raise _) fun _ =>
      .ite (by rw [h.arg]) (h.raise _) fun _ => .ite (by rw [h.buf, h.params]) (h.raise _) fun _ => ?_
    exact (h.setBuf b (by rw [h.buf, h.arg])).complete
  | bbAppendBuf b src =>
    refine .ite (by rw [h.bufferIndexOk, h.bufferIndexOk]) (h.raise _) fun _ => .ite Iff.rfl (h.raise _) fun _ =>
      .ite (by rw [h.buf, h.buf, h.params]) (h.raise _) fun _ => ?_
    exact (h.setBuf b (by rw [h.buf, h.buf])).complete
  | bbClone b src =>
    exact .ite (by rw [h.bufferIndexOk, h.bufferIndexOk]) (h.raise _) fun _ => (h.setBuf b (h.buf src)).complete
  | bbLen b =>
    exact .ite (by rw [h.bufferIndexOk]) (h.raise _) fun _ => (h.setResult (by rw [h.buf])).complete
  | bbRead b =>
    refine .ite (by rw [h.bufferIndexOk]) (h.raise _) fun _ => .ite (by rw [h.buf, State.argIndex, h.arg]) (h.raise _) fun _ => ?_
    exact (h.setResult (by rw [h.buf, State.argIndex, h.arg])).complete
  | gfMul a c => exact (h.setResult (by rw [h.params])).complete
  | rsDiv n => exact .ite (by rw [h.params]) (h.raise _) fun hn => (h.loadDivisor (by omega)).complete
  | rsClr => exact (h.setRem (by rw [h.deg]) List.length_replicate).complete
  | rsFeed d =>
    refine .ite (by rw [h.deg]) (h.raise _) fun _ => (h.setRem ?_ (length_feedRegister ..)).complete
    rw [h.feedRegister, h.params, h.deg]
  | rsRdrem j =>
    exact .ite (by rw [h.deg]) (h.raise _) fun hj => (h.setResult (by rw [h.fileGet_rem (by omega)])).complete
  | rsRddiv j =>
    exact .ite (by rw [h.deg]) (h.raise _) fun hj => (h.setResult (by rw [h.fileGet_div (by omega)])).complete

/-! ### Steps -/

theorem executeWord_alike (w : Word) {s s' : State} (h : SameView s s') : Alike (executeWord w s) (executeWord w s') := by
  cases hd : decode w with
  | error e =>
    simp only [executeWord, hd]
    exact h.raise _
  | ok i =>
    rw [executeWord_of_decode hd, executeWord_of_decode hd]
    exact exec_alike i h

theorem writeWindow_alike (off : Nat) (v : Word) {s s' : State} (h : SameView s s') :
    Alike (writeWindow off v s) (writeWindow off v s') := by
  cases hreg : windowReg off <;> simp only [writeWindow, hreg]
  case cmd => exact executeWord_alike v h
  case arg => exact .next (h.setArg v)
  all_goals exact .next h

theorem applyReset_sameView {s s' : State} (h : SameView s s') : SameView (applyReset s) (applyReset s') := by
  refine ⟨h.params, ?_, rfl, rfl, rfl, rfl, rfl, rfl, h.raised, h.pending, h.index, h.reads⟩
  simp only [applyReset, State.resetOf, h.params]

theorem performAccess_alike (a : Access) {s s' : State} (h : SameView s s') :
    Alike (performAccess a s) (performAccess a s') := by
  have hplace (addr width : Nat) : place s'.params addr width = place s.params addr width := by rw [h.params]
  cases a with
  | write addr width v =>
    simp only [performAccess, hplace]
    cases place s.params addr width with
    | admitted off => exact writeWindow_alike off v { h with index := congrArg (· + 1) h.index }
    | notAdmitted => exact .refused _
    | outside => exact .fault _
  | read addr width =>
    simp only [performAccess, hplace]
    cases place s.params addr width with
    | admitted off =>
      exact .next { h with index := congrArg (· + 1) h.index, reads := by simp only [h.reads, h.readWindow] }
    | notAdmitted => exact .refused _
    | outside => exact .fault _

theorem step_alike {s s' : State} (h : SameView s s') : Alike (step s) (step s') := by
  simp only [step, ← h.pending]
  cases s.pending with
  | nil => exact .next h
  | cons e rest =>
    have hrest : SameView { s with pending := rest } { s' with pending := rest } := { h with pending := rfl }
    cases e with
    | access a => exact performAccess_alike a hrest
    | reset => exact .next (applyReset_sameView hrest)

/-- Settles O56: states that agree on what can be seen step alike, command by command. -/
theorem unspecifiedEntriesAreNeverRead : Obligations.UnspecifiedEntriesAreNeverRead := by
  intro s s' ho hp hi hr
  have halike : Alike (step s) (step s') := step_alike (sameView_iff.mpr ⟨ho, hp, hi, hr⟩)
  refine ⟨fun t ht => ?_, fun f hf => (hf ▸ halike).eq_fault, fun r hr => (hr ▸ halike).eq_refused⟩
  obtain ⟨t', ht', hview⟩ := (ht ▸ halike).exists_next
  exact ⟨t', ht', sameView_iff.mp hview⟩

end Sys2Proof.Machine
end

section
/-! SUPPORT. O11, O12, O16, O36, O41, O42, O43, O44: who writes what. -/

namespace Sys2Proof.Machine

variable {s t u : State} {i : Instr}

/-! ### The access index (R20) -/

/-- No command changes the host's list, its index or the values read. -/
theorem exec_host_eq (h : exec i s = .next t) : t.index = s.index ∧ t.pending = s.pending ∧ t.reads = s.reads := by
  obtain ⟨c, -, rfl⟩ | ⟨u, he, rfl⟩ := exec_cases h
  · exact ⟨rfl, rfl, rfl⟩
  · exact he.host_eq

/-- No write through the window changes the host's list or its index. -/
theorem writeWindow_host_eq {off : Nat} {v : Word} (h : writeWindow off v s = .next t) :
    t.pending = s.pending ∧ t.index = s.index := by
  obtain ⟨-, hx⟩ | ⟨-, rfl⟩ | ⟨-, -, rfl⟩ := writeWindow_cases h
  · obtain ⟨c, -, rfl⟩ | ⟨i, u, -, he, rfl⟩ := executeWord_cases hx
    · exact ⟨rfl, rfl⟩
    · obtain ⟨hi, hp, -⟩ := he.host_eq
      exact ⟨hp, hi⟩
  · exact ⟨rfl, rfl⟩
  · exact ⟨rfl, rfl⟩

/-- Settles O11: an access is taken and counted before it acts, and nothing it does touches the list or the index. -/
theorem accessIndexAdvancesByOne : Obligations.AccessIndexAdvancesByOne := by
  refine ⟨rfl, fun s t h => ?_, fun i s t h => exec_host_eq h⟩
  obtain ⟨hp, rfl⟩ | ⟨rest, hp, rfl⟩ | ⟨rest, off, v, hp, -, -, hw⟩ | ⟨rest, off, hp, -, -, rfl⟩ := step_cases h
  · exact .inr (.inr ⟨hp, hp, rfl⟩)
  · exact .inr (.inl ⟨rest, hp, rfl, rfl⟩)
  · exact .inl ⟨_, rest, hp, writeWindow_host_eq hw⟩
  · exact .inl ⟨_, rest, hp, rfl, rfl⟩

/-! ### Reset (R38) -/

theorem step_of_reset {rest : List Event} (h : s.pending = .reset :: rest) :
    step s = .next (applyReset { s with pending := rest }) := by
  simp only [step, h, performEvent]

/-- Settles O12: the reset input rebuilds the block's state from its parameters alone and leaves the host's fields. -/
theorem resetGivesResetValues : Obligations.ResetGivesResetValues :=
  ⟨fun _ _ h => ⟨_, step_of_reset h, rfl, rfl, rfl, rfl, rfl, rfl, rfl, rfl, rfl⟩, by decide, rfl, rfl, rfl, rfl, rfl,
    rfl, rfl, rfl, rfl⟩

/-! ### The parameters -/

theorem step_params_eq (h : step s = .next t) : t.params = s.params := by
  cases stepEffect_of_step h with
  | completed next cmd eff => exact eff.params_eq
  | _ => rfl

/-- Settles O16: no step changes the parameters, from which CONFIG and CAPACITY are computed. -/
theorem stepKeepsParameters : Obligations.StepKeepsParameters := by
  intro s t h
  have hp : t.params = s.params := step_params_eq h
  exact ⟨hp, congrArg configWord hp, congrArg capacityWord hp⟩

/-! ### STATUS (R37) -/

/-- Every executed word leaves one of the six codes (R201). -/
theorem executeWord_code {w : Word} (h : executeWord w s = .next t) : ∃ c, statusCode t.status = statusCodeBits c := by
  obtain ⟨c, -, rfl⟩ | ⟨i, u, -, -, rfl⟩ := executeWord_cases h
  · exact ⟨c, by simp⟩
  · exact ⟨.ok, by simp⟩

/-- ST_CLR clears ERR, and no other completing command changes it (R182, R204). -/
theorem Effect.err_eq (h : Effect s i u) :
    i = .stClr ∧ statusErr u.status = false ∨ statusErr u.status = statusErr s.status := by
  obtain ⟨hi, hs⟩ | hs := h.status_eq
  · exact .inl ⟨hi, by simp [hs]⟩
  · exact .inr (by rw [hs])

theorem statusCode_completed (s : State) : statusCode s.completed.status = 0 := by
  simp [statusCodeBits]

theorem statusCode_raisedWith_ne_zero (s : State) {c : StatusCode} (hc : c ≠ .ok) :
    statusCode (s.raisedWith c).status ≠ 0 := by
  rw [raisedWith_status, statusCode_setErr, statusCode_setCode]
  exact mt (statusCodeBits_eq_zero c).mp hc

@[simp] theorem applyReset_status (s : State) : (applyReset s).status = 0#32 := rfl

/-- Settles O36: a raise sets ERR, only ST_CLR and reset clear it, and no other step but a command's writes STATUS. -/
theorem onlyCommandsAndResetWriteStatus : Obligations.OnlyCommandsAndResetWriteStatus := by
  intro s t h
  refine ⟨fun hne => ?_, fun hs ht => ?_, fun hs ht => ?_, fun w hw => ?_⟩
  · cases stepEffect_of_step h with
    | reset next => exact .inl next
    | raised next ne => exact .inr ⟨_, next⟩
    | completed next cmd eff => exact .inr ⟨_, next⟩
    | port argWrite => exact absurd rfl hne
  · cases stepEffect_of_step h with
    | reset next => simp at ht
    | raised next ne => exact ⟨_, next, statusCode_raisedWith_ne_zero _ ne⟩
    | completed next cmd eff =>
      obtain ⟨-, he⟩ | he := eff.err_eq
      · simp [he] at ht
      · simp [he, hs] at ht
    | port argWrite => simp [hs] at ht
  · cases stepEffect_of_step h with
    | reset next => exact .inl next
    | raised next ne => simp at ht
    | completed next cmd eff =>
      obtain ⟨rfl, -⟩ | he := eff.err_eq
      · exact .inr (nextCommand_iff.mpr ⟨_, next, cmd⟩)
      · simp [he, hs] at ht
    | port argWrite => simp [hs] at ht
  · obtain ⟨rest, hstep⟩ := step_of_cmdWrite hw
    exact executeWord_code (hstep.symm.trans h)

/-! ### ARG, RESULT and the remainder unit's registers -/

/-- Settles O41: a command reads ARG and does not write it; of the other steps only reset writes RESULT. -/
theorem argAndResultWriters : Obligations.ArgAndResultWriters := by
  intro s t h
  refine ⟨fun hne => ?_, fun hne => ?_⟩
  · cases stepEffect_of_step h with
    | reset next => exact .inl ⟨next, rfl⟩
    | raised next ne => exact absurd rfl hne
    | completed next cmd eff => exact absurd eff.arg_eq hne
    | port argWrite => exact .inr (argWrite.resolve_left hne)
  · cases stepEffect_of_step h with
    | reset next => exact .inl ⟨next, rfl⟩
    | raised next ne => exact absurd rfl hne
    | completed next cmd eff => exact .inr ⟨_, nextCommand_iff.mpr ⟨_, next, cmd⟩⟩
    | port argWrite => exact absurd rfl hne

/-- A step that is no reset and changes one of the registers DEG, DIV and REM is a command that completes with a change of it. -/
theorem exists_effect_of_rs_ne (h : step s = .next t) (hr : nextIsReset s = false)
    (hne : ¬(t.deg = s.deg ∧ t.div = s.div ∧ t.rem = s.rem)) :
    ∃ rest i u, nextCommand s = some i ∧ Effect (s.taken rest) i u ∧ t = u.completed := by
  cases stepEffect_of_step h with
  | reset next => simp [hr] at next
  | raised next ne => exact absurd ⟨rfl, rfl, rfl⟩ hne
  | completed next cmd eff => exact ⟨_, _, _, nextCommand_iff.mpr ⟨_, next, cmd⟩, eff, rfl⟩
  | port argWrite => exact absurd ⟨rfl, rfl, rfl⟩ hne

/-- A completing RS_DIV `n` leaves `DEG = n`, within its bounds (R151). -/
theorem deg_of_completed_rsDiv {n : Nat} (h : exec (.rsDiv n) s = .next t) (hn : n < 256) (hc : statusCode t.status = 0) :
    t.deg.toNat = n ∧ 1 ≤ n ∧ n ≤ s.params.nmax := by
  obtain ⟨-, rfl⟩ | ⟨⟨hpos, hle⟩, rfl⟩ := execRsDiv_cases h
  · exact absurd hc (statusCode_raisedWith_ne_zero s (by decide))
  · exact ⟨Nat.mod_eq_of_lt hn, hpos, hle⟩

/-- Settles O42: the three registers change only by a completing command, and by which one the command's effect says. -/
theorem rsRegisterWriters : Obligations.RsRegisterWriters := by
  intro s t h hr
  refine ⟨fun hne => ?_, fun n hn hc => ?_, fun hne => ?_, fun hne => ?_⟩
  · obtain ⟨rest, i, u, hcmd, eff, rfl⟩ := exists_effect_of_rs_ne h hr fun heq => hne heq.1
    obtain ⟨n, rfl, -⟩ | ⟨hdeg, -⟩ := eff.divisor_eq
    · exact ⟨n, hcmd, statusCode_completed u⟩
    · exact absurd hdeg hne
  · obtain ⟨w, -, hd⟩ := nextCommand_iff.mp hn
    obtain ⟨rest, hstep⟩ := step_of_nextCommand hn
    exact deg_of_completed_rsDiv (s := s.taken rest) (hstep.symm.trans h) (lt_of_decode_rsDiv hd) hc
  · obtain ⟨rest, i, u, hcmd, eff, rfl⟩ := exists_effect_of_rs_ne h hr fun heq => hne heq.2.1
    obtain ⟨n, rfl, -⟩ | ⟨-, hdiv⟩ := eff.divisor_eq
    · exact ⟨n, hcmd⟩
    · exact absurd hdiv hne
  · obtain ⟨rest, i, u, hcmd, eff, rfl⟩ := exists_effect_of_rs_ne h hr fun heq => hne heq.2.2
    obtain ⟨n, rfl⟩ | rfl | ⟨d, rfl⟩ := eff.rem_eq.resolve_right hne
    · exact .inl ⟨n, hcmd⟩
    · exact .inr (.inl hcmd)
    · exact .inr (.inr ⟨d, hcmd⟩)

/-! ### Bit buffers (R23, R26) -/

/-- A write of one buffer that only adds to its end only adds to the end of every buffer. -/
theorem buf_prefix_setBuf {b : Nat} {bits : List Bool} (h : s.buf b <+: bits) (c : Nat) : s.buf c <+: (s.setBuf b bits).buf c := by
  by_cases hc : c = b
  · subst hc
    by_cases hlt : c < s.bufs.length
    · rwa [buf_setBuf_same s hlt]
    · have hset : (s.setBuf c bits).bufs = s.bufs := List.set_eq_of_length_le (by omega)
      rw [State.buf, State.buf, hset]
  · rw [buf_setBuf_other s hc]

/-- A command that does not empty buffer `c` changes it only by appending to it (R23). -/
theorem Effect.buf_prefix (h : Effect s i u) {c : Nat} (hc : emptiesBuffer i c = false) : s.buf c <+: u.buf c := by
  cases h with
  | clear b | clone b src =>
    have hne : c ≠ b := fun heq => by simp [emptiesBuffer, heq] at hc
    rw [buf_setBuf_other s hne]
  | append dest keeps fits => exact buf_prefix_setBuf (List.prefix_append _ _) c
  | nop | clearErr | result dest bound | divisor pos le | remainder cmd len => exact List.prefix_rfl

/-- Settles O43: outside the emptying events the new content starts with the old. -/
theorem bufferOnlyGrowsBetweenEmptyings : Obligations.BufferOnlyGrowsBetweenEmptyings := by
  intro s t b h hr hno
  have hprefix : s.buf b <+: t.buf b := by
    cases stepEffect_of_step h with
    | reset next => simp [hr] at next
    | raised next ne => exact List.prefix_rfl
    | @completed rest w i u next cmd eff =>
      have hempties : emptiesBuffer i b = false := by
        by_contra he
        exact hno i (nextCommand_iff.mpr ⟨w, next, cmd⟩) (by simpa using he) (statusCode_completed u)
      exact eff.buf_prefix hempties
    | port argWrite => exact List.prefix_rfl
  exact ⟨hprefix.length_le, fun k hk => (List.prefix_iff_getElem?.mp hprefix k hk).trans (List.getElem?_eq_getElem hk).symm⟩

/-- A command writes no buffer but its destination (R26). -/
theorem Effect.buf_eq (h : Effect s i u) {c : Nat} (hc : destinationBuffer i ≠ some c) : u.buf c = s.buf c := by
  cases h with
  | clear b | clone b src => exact buf_setBuf_other s (fun heq => hc (by rw [heq]; rfl)) _
  | append dest keeps fits => exact buf_setBuf_other s (fun heq => hc (by rw [heq, dest])) _
  | nop | clearErr | result dest bound | divisor pos le | remainder cmd len => rfl

theorem Effect.bufs_eq (h : Effect s i u) (hc : destinationBuffer i = none) : u.bufs = s.bufs := by
  cases h with
  | clear b | clone b src => simp [destinationBuffer] at hc
  | append dest keeps fits => simp [dest] at hc
  | nop | clearErr | result dest bound | divisor pos le | remainder cmd len => rfl

/-- BB_CLONE of a buffer onto itself writes back what stands there (R104). -/
theorem Effect.bufs_eq_of_selfClone {b : Nat} (h : Effect s (.bbClone b b) u) : u.bufs = s.bufs := by
  cases h with
  | clone => rw [setBuf_buf_self]
  | append dest keeps fits =>
    obtain rfl : b = _ := Option.some.inj dest
    simp [emptiesBuffer] at keeps
  | result dest bound => simp [destinationBuffer] at dest
  | remainder cmd len => rfl

/-- Settles O44: a raise changes no buffer, and a completing command at most its destination. -/
theorem commandsChangeOnlyDestinationBuffer : Obligations.CommandsChangeOnlyDestinationBuffer := by
  intro i s t h
  obtain ⟨c, -, rfl⟩ | ⟨u, eff, rfl⟩ := exec_cases h
  · exact ⟨fun _ _ => rfl, fun _ _ => rfl, fun _ => rfl⟩
  · refine ⟨fun c hc => eff.buf_eq hc, fun b hb => ?_, fun hnone => eff.bufs_eq hnone⟩
    subst hb
    exact eff.bufs_eq_of_selfClone

end Sys2Proof.Machine
end

section
/-! SUPPORT. O6, O9, O10, O13: what a step makes of one host access, by the place where the access falls. -/

namespace Sys2Proof.Machine

variable {s t : State} {i : Instr}

/-! ### The place of an access (R50, R52) -/

/-- Where an access falls: its kind and its value play no part. -/
def Access.place (p : Config.Params) : Access → Place
  | .write addr width _ => Machine.place p addr width
  | .read addr width => Machine.place p addr width

theorem place_eq_outside {p : Config.Params} {addr width : Nat} :
    place p addr width = .outside ↔ addr < p.base ∨ p.base + 256 ≤ addr := by
  unfold place
  split
  · simpa only [true_iff]
  · split <;> simpa only [reduceCtorEq, false_iff]

theorem place_eq_notAdmitted {p : Config.Params} {addr width : Nat} :
    place p addr width = .notAdmitted ↔
      (p.base ≤ addr ∧ addr < p.base + 256) ∧ (width ≠ 4 ∨ (addr - p.base) % 4 ≠ 0) := by
  unfold place
  split
  · simp only [reduceCtorEq, false_iff]
    omega
  · split
    · simp only [reduceCtorEq, false_iff]
      omega
    · simp only [true_iff]
      omega

/-- A step with an access at the head of the list performs it. -/
theorem step_of_access {a : Access} {rest : List Event} (h : s.pending = .access a :: rest) :
    step s = performAccess a { s with pending := rest } := by
  simp only [step, h, performEvent]

theorem step_of_outside {a : Access} {rest : List Event} (h : s.pending = .access a :: rest)
    (hpl : a.place s.params = .outside) : step s = .fault .outsideWindow := by
  rw [step_of_access h]
  cases a <;> simp_all only [Access.place, performAccess]

theorem step_of_notAdmitted {a : Access} {rest : List Event} (h : s.pending = .access a :: rest)
    (hpl : a.place s.params = .notAdmitted) : step s = .refused .accessNotAdmitted := by
  rw [step_of_access h]
  cases a <;> simp_all only [Access.place, performAccess]

/-- An admitted read is counted, and its value goes to the host's list (R53). -/
theorem step_of_read {addr width off : Nat} {rest : List Event} (h : s.pending = .access (.read addr width) :: rest)
    (hpl : place s.params addr width = .admitted off) :
    step s = .next { s.taken rest with reads := s.reads ++ [readWindow off s] } := by
  rw [step_of_access h]
  simp only [performAccess, hpl]
  rfl

/-- An admitted write is counted, and then writes through the window (R54). -/
theorem step_of_write {addr width off : Nat} {v : Word} {rest : List Event}
    (h : s.pending = .access (.write addr width v) :: rest) (hpl : place s.params addr width = .admitted off) :
    step s = writeWindow off v (s.taken rest) := by
  rw [step_of_access h]
  simp only [performAccess, hpl]
  rfl

theorem place_base_add (p : Config.Params) {off : Nat} (hlt : off < 256) (hal : off % 4 = 0) :
    place p (p.base + off) 4 = .admitted off :=
  place_eq_admitted.mpr ⟨rfl, hlt, rfl, hal⟩

/-- Settles O10: both kinds of access ask for the place first. -/
theorem accessOutsideWindowFaults : Obligations.AccessOutsideWindowFaults := by
  intro s rest addr width v hout hp
  have hpl : place s.params addr width = .outside := place_eq_outside.mpr hout
  exact hp.elim (step_of_outside · hpl) (step_of_outside · hpl)

/-! ### An admitted access never stops the machine (R180) -/

/-- The outcome is a next state. -/
def IsNext (o : Result) : Prop := ∃ t, o = .next t

theorem raise_isNext (c : StatusCode) (s : State) : IsNext (raise c s) := ⟨_, rfl⟩

theorem complete_isNext (s : State) : IsNext (complete s) := ⟨_, rfl⟩

theorem IsNext.ite {p : Prop} [Decidable p] {a b : Result} (ha : IsNext a) (hb : IsNext b) :
    IsNext (if p then a else b) := by
  split
  · exact ha
  · exact hb

/-- Every command is a row of checks that raise, with a completion at its end. -/
theorem exec_isNext (i : Instr) (s : State) : IsNext (exec i s) := by
  cases i with
  | nop | stClr | gfMul a c | rsClr => exact complete_isNext _
  | bbClear b | bbClone b src | bbLen b | rsDiv n | rsFeed d | rsRdrem j | rsRddiv j =>
    exact .ite (raise_isNext _ _) (complete_isNext _)
  | bbRead b => exact .ite (raise_isNext _ _) (.ite (raise_isNext _ _) (complete_isNext _))
  | bbAppendBuf b src =>
    exact .ite (raise_isNext _ _) (.ite (raise_isNext _ _) (.ite (raise_isNext _ _) (complete_isNext _)))
  | bbAppend b w =>
    exact .ite (raise_isNext _ _) (.ite (raise_isNext _ _) (.ite (raise_isNext _ _)
      (.ite (raise_isNext _ _) (complete_isNext _))))

theorem executeWord_of_error {w : Word} {e : IllegalWord} (h : decode w = .error e) (s : State) :
    executeWord w s = raise .illegalCommand s := by
  simp only [executeWord, h]

theorem executeWord_isNext (w : Word) (s : State) : IsNext (executeWord w s) := by
  cases hd : decode w with
  | error e =>
    rw [executeWord_of_error hd]
    exact raise_isNext _ _
  | ok i =>
    rw [executeWord_of_decode hd]
    exact exec_isNext i s

theorem writeWindow_isNext (off : Nat) (v : Word) (s : State) : IsNext (writeWindow off v s) := by
  unfold writeWindow
  cases windowReg off with
  | cmd => exact executeWord_isNext v s
  | _ => exact ⟨_, rfl⟩

/-- Settles O9: an access that falls on no aligned word is refused, and one that does is taken, counted and performed. -/
theorem onlyAlignedWordAccessesAdmitted : Obligations.OnlyAlignedWordAccessesAdmitted := by
  intro s rest addr width v hlo hhi hp
  refine ⟨fun hbad => ?_, fun ⟨hwidth, hal⟩ => ?_⟩
  · have hpl : place s.params addr width = .notAdmitted := place_eq_notAdmitted.mpr ⟨⟨hlo, hhi⟩, hbad⟩
    exact hp.elim (step_of_notAdmitted · hpl) (step_of_notAdmitted · hpl)
  · have hpl : place s.params addr width = .admitted (addr - s.params.base) :=
      place_eq_admitted.mpr ⟨by omega, by omega, hwidth, hal⟩
    obtain hp | hp := hp
    · exact ⟨_, step_of_read hp hpl, rfl, rfl⟩
    · obtain ⟨t, ht⟩ := writeWindow_isNext (addr - s.params.base) v (s.taken rest)
      exact ⟨t, (step_of_write hp hpl).trans ht, writeWindow_host_eq ht⟩

/-! ### A write to CMD (R54, R180) -/

theorem step_of_write_cmd {w : Word} {rest : List Event} (h : s.pending = .access (.write s.params.base 4 w) :: rest) :
    step s = executeWord w (s.taken rest) :=
  step_of_write (off := 0) h (place_eq_admitted.mpr ⟨rfl, by decide, rfl, rfl⟩)

theorem step_of_write_arg {v : Word} {rest : List Event}
    (h : s.pending = .access (.write (s.params.base + 4) 4 v) :: rest) :
    step s = .next { s.taken rest with arg := v } :=
  step_of_write h (place_base_add s.params (by decide) rfl)

/-- The state a raise leaves, with STATUS as a word: ERR is bit 4, and the code stands below it (R203). -/
theorem raisedWith_eq (s : State) (c : StatusCode) : s.raisedWith c =
    { s with status := (s.status &&& 0xFFFFFFE0#32) ||| (0x10#32 ||| (statusCodeBits c).setWidth 32), raised := true } := by
  simp only [State.raisedWith, statusSetErr_setCode, BitVec.or_assoc, BitVec.ofNat_eq_ofNat]

/-- Settles O6: the write is taken and counted, and then its word is executed. -/
theorem stepExecutesWrittenCommand : Obligations.StepExecutesWrittenCommand := by
  intro s rest w hp
  refine ⟨fun i hd => ?_, fun e hd => ?_⟩
  · rw [step_of_write_cmd hp, executeWord_of_decode hd]
    rfl
  · rw [step_of_write_cmd hp, executeWord_of_error hd, raise, raisedWith_eq]
    rfl

/-! ### Two accesses in a row (R60) -/

/-- Two steps are the step from where the first one leads. -/
theorem run_two_of_step {M : Host.Core} {s t : M.State} (h : M.step s = .next t) : M.run 2 s = M.step t := by
  simp only [Host.Core.run, h]
  cases M.step t <;> rfl

theorem exec_arg_eq (h : exec i s = .next t) : t.arg = s.arg := by
  obtain ⟨c, -, rfl⟩ | ⟨u, he, rfl⟩ := exec_cases h
  · rfl
  · exact he.arg_eq

/-- Settles O13: the first step leaves ARG = v, the second executes the command there, and no command writes ARG. -/
theorem commandUsesLastArgWrite : Obligations.CommandUsesLastArgWrite := by
  intro s rest v w i hp hd
  have hcmd : step { s.taken (.access (.write s.params.base 4 w) :: rest) with arg := v } =
      exec i { s with arg := v, pending := rest, index := s.index + 2 } :=
    (step_of_write_cmd rfl).trans (executeWord_of_decode hd _)
  have hrun : Sys2Proof.core.run 2 s = exec i { s with arg := v, pending := rest, index := s.index + 2 } :=
    (run_two_of_step (M := Sys2Proof.core) (step_of_write_arg hp)).trans hcmd
  exact ⟨hrun, fun t ht => exec_arg_eq (hrun.symm.trans ht)⟩

end Sys2Proof.Machine
end

section
/-! SUPPORT. O8: the registers of the window, offset by offset (R51, R33, R34). -/

namespace Sys2Proof.Machine

theorem windowReg_of_reserved {off : Nat} (h : 0x18 ≤ off) : windowReg off = .reserved := by
  unfold windowReg
  split
  case h_7 => rfl
  all_goals omega

theorem readWindow_of_reserved {off : Nat} (h : 0x18 ≤ off) (s : State) : readWindow off s = 0 := by
  simp only [readWindow, windowReg_of_reserved h]

/-- Only CMD and ARG take a write (R54). -/
theorem writeWindow_of_ignored {off : Nat} (h : 0x08 ≤ off) (v : Word) (s : State) : writeWindow off v s = .next s := by
  obtain ⟨t, ht⟩ := writeWindow_isNext off v s
  obtain ⟨hoff, -⟩ | ⟨hoff, -⟩ | ⟨-, -, rfl⟩ := writeWindow_cases ht
  · omega
  · omega
  · exact ht

/-- An append is a sum, the high part shifted up. -/
theorem toNat_append_eq_add {m n : Nat} (x : BitVec m) (y : BitVec n) : (x ++ y).toNat = x.toNat * 2 ^ n + y.toNat := by
  rw [BitVec.toNat_append, ← Nat.shiftLeft_add_eq_or_of_lt y.isLt, Nat.shiftLeft_eq]

theorem toNat_gfImplBit (impl : Config.GfImpl) : (gfImplBit impl).toNat = if impl = .bitserial then 1 else 0 := by
  cases impl <;> rfl

/-- CONFIG as a number (R33): in a legal instance NB and NMAX fit their fields. -/
theorem configWord_eq {p : Config.Params} (h : p.Legal) : configWord p =
    BitVec.ofNat 32 (p.nb + 2 ^ 8 * p.nmax + 2 ^ 16 * (if p.gfImpl = .bitserial then 1 else 0)) := by
  obtain ⟨⟨-, hnb⟩, -, ⟨-, hnmax⟩, -⟩ := h
  apply BitVec.eq_of_toNat_eq
  simp only [configWord, toNat_append_eq_add, toNat_gfImplBit, BitVec.toNat_ofNat]
  split <;> omega

/-- Settles O8: a read changes nothing but the host's own list, and of the writes only those to CMD and ARG act. -/
theorem registerWindowMap : Obligations.RegisterWindowMap := by
  refine ⟨fun s rest off hlegal hlt hal hp => ?_, fun s rest off v hlt hal hp => ?_, by decide, by decide, rfl, rfl, rfl⟩
  · refine ⟨readWindow off s, step_of_read hp (place_base_add s.params hlt hal), ?_, ?_, ?_, ?_, ?_, ?_, ?_⟩
    case refine_5 =>
      rintro rfl
      exact configWord_eq hlegal
    case refine_7 => exact fun hoff => readWindow_of_reserved hoff s
    all_goals exact fun hoff => hoff ▸ rfl
  · have hstep : step s = writeWindow off v (s.taken rest) := step_of_write hp (place_base_add s.params hlt hal)
    refine ⟨?_, ?_, fun hoff => hstep.trans (writeWindow_of_ignored hoff v _)⟩
    all_goals
      rintro rfl
      exact hstep

end Sys2Proof.Machine
end

section
/-! SUPPORT. O45, O47: the order of the bits in a buffer (R56) and of the codewords formed from it (R57). -/

namespace Sys2Proof.Machine

variable {s t : State} {i : Instr} {b : Nat}

/-- Every command keeps the invariant. -/
theorem exec_wf (h : exec i s = .next t) (hs : s.Wf) : t.Wf := by
  obtain ⟨c, -, rfl⟩ | ⟨u, he, rfl⟩ := exec_cases h
  · exact raisedWith_wf c hs
  · exact he.completed_wf hs

theorem exec_params_eq (h : exec i s = .next t) : t.params = s.params := by
  obtain ⟨c, -, rfl⟩ | ⟨u, he, rfl⟩ := exec_cases h
  · rfl
  · exact he.params_eq

/-- What a completing BB_APPEND leaves in its buffer (R102). -/
theorem buf_of_completed_bbAppend {w : Nat} (hs : s.Wf) (h : exec (.bbAppend b w) s = .next t)
    (hc : statusCode t.status = 0) : t.buf b = s.buf b ++ msbFirst w s.arg := by
  obtain ⟨-, rfl⟩ | ⟨-, -, rfl⟩ | ⟨⟨hb, -⟩, -, rfl⟩ := execBbAppend_cases h
  · exact absurd hc (statusCode_raisedWith_ne_zero s (by decide))
  · exact absurd hc (statusCode_raisedWith_ne_zero s (by decide))
  · obtain ⟨-, hlen, -⟩ := hs
    rw [buf_completed, buf_setBuf_same s (hlen.symm ▸ hb)]

/-! ### Bits (R56) -/

/-- BB_READ of an index that is there returns its bit (R106). -/
theorem exec_bbRead_of_getElem? {bit : Bool} (hb : b < s.params.nb) (h : (s.buf b)[s.arg.toNat]? = some bit) :
    exec (.bbRead b) s = .next (s.setResult (BitVec.ofNat 32 bit.toNat)).completed := by
  obtain ⟨hlt, hget⟩ := List.getElem?_eq_some_iff.mp h
  obtain ⟨t, ht⟩ := exec_isNext (.bbRead b) s
  obtain ⟨hge, -⟩ | ⟨-, hge, -⟩ | ⟨-, -, rfl⟩ := execBbRead_cases ht
  · omega
  · omega
  · rw [ht, List.getD_eq_getElem?_getD, h]
    cases bit <;> rfl

/-- In a well-formed state every index of a bit that is there fits in ARG (R24). -/
theorem lt_of_getElem?_buf {bit : Bool} {n : Nat} (hs : s.Wf) (h : (s.buf b)[n]? = some bit) : n < 2 ^ 32 := by
  have hlen : (s.buf b).length ≤ s.params.bbCap := buf_length_le hs b
  obtain ⟨⟨-, ⟨-, hcap⟩, -⟩, -⟩ := hs
  obtain ⟨hlt, -⟩ := List.getElem?_eq_some_iff.mp h
  omega

/-- The host reads bit `n` of a buffer by writing `n` to ARG and executing BB_READ. -/
theorem exists_bbRead_of_getElem? {bit : Bool} {n : Nat} (hs : s.Wf) (hb : b < s.params.nb)
    (h : (s.buf b)[n]? = some bit) :
    ∃ u, exec (.bbRead b) { s with arg := BitVec.ofNat 32 n } = .next u ∧
      statusCode u.status = 0 ∧ u.result = BitVec.ofNat 32 bit.toNat := by
  have harg : (BitVec.ofNat 32 n).toNat = n := Nat.mod_eq_of_lt (lt_of_getElem?_buf hs h)
  refine ⟨_, exec_bbRead_of_getElem? hb (bit := bit) ?_, statusCode_completed _, rfl⟩
  rw [← h]
  exact congrArg (fun m => (s.buf b)[m]?) harg

/-- Settles O45: the value's bits follow the earlier ones, and BB_READ returns the bit at its index. -/
theorem appendedBitsReadBackMsbFirst : Obligations.AppendedBitsReadBackMsbFirst := by
  intro s t b w hs hb h hc
  have hbuf : t.buf b = s.buf b ++ msbFirst w s.arg := buf_of_completed_bbAppend hs h hc
  have ht : t.Wf := exec_wf h hs
  have hbt : b < t.params.nb := (exec_params_eq h).symm ▸ hb
  refine ⟨fun k hk => exists_bbRead_of_getElem? ht hbt ?_, fun k bit hbit => exists_bbRead_of_getElem? ht hbt ?_⟩
  · rw [hbuf, List.getElem?_append_right (Nat.le_add_right _ _), Nat.add_sub_cancel_left, getElem?_msbFirst _ hk]
  · obtain ⟨hlt, -⟩ := List.getElem?_eq_some_iff.mp hbit
    rw [hbuf, List.getElem?_append_left hlt, hbit]

/-! ### Codewords (R57) -/

/-- The byte into which the bits `f 0` to `f (n-1)` are shifted from the right, one after another. -/
def shiftIn (f : Nat → Bool) (n : Nat) : Byte := (List.range n).foldl (fun acc i => (acc <<< 1) ||| (if f i then 1 else 0)) 0

theorem codeword_eq_shiftIn (bits : List Bool) (k : Nat) :
    codeword bits k = shiftIn (fun i => bits.getD (8 * k + i) false) 8 := rfl

theorem shiftIn_succ (f : Nat → Bool) (n : Nat) :
    shiftIn f (n + 1) = (shiftIn f n <<< 1) ||| (if f n then 1 else 0) := by
  simp only [shiftIn, List.range_succ, List.foldl_append, List.foldl_cons, List.foldl_nil]

/-- The last bit shifted in is bit 0, the one before it bit 1, and so on. -/
theorem getLsbD_shiftIn (f : Nat → Bool) {n j : Nat} (hj : j < n) (h8 : j < 8) :
    (shiftIn f n).getLsbD j = f (n - 1 - j) := by
  induction n generalizing j with
  | zero => omega
  | succ n ih =>
    rw [shiftIn_succ]
    cases j with
    | zero => cases hf : f n <;> simp [hf]
    | succ j =>
      have hprev : (shiftIn f n).getLsbD j = f (n - 1 - j) := ih (by omega) (by omega)
      have hidx : n + 1 - 1 - (j + 1) = n - 1 - j := by omega
      rw [hidx, ← hprev]
      cases f n <;> simp [h8, BitVec.getLsbD_eq_getElem (show j < 8 by omega)]

/-- Bit `8k` of a buffer is bit 7 of its codeword `k` (R57). -/
theorem getLsbD_codeword (bits : List Bool) (k : Nat) {j : Nat} (hj : j < 8) :
    (codeword bits k).getLsbD j = bits.getD (8 * k + (7 - j)) false := by
  rw [codeword_eq_shiftIn, getLsbD_shiftIn _ hj hj]

/-- A codeword wholly below the end of `bits` stays when more is appended. -/
theorem codeword_append_left {bits : List Bool} {k : Nat} (h : 8 * k + 8 ≤ bits.length) (more : List Bool) :
    codeword (bits ++ more) k = codeword bits k := by
  apply BitVec.eq_of_getLsbD_eq
  intro j hj
  rw [getLsbD_codeword _ _ hj, getLsbD_codeword _ _ hj, List.getD_append _ _ _ _ (by omega)]

/-- The 8 bits appended at a byte boundary are the codeword there. -/
theorem codeword_append_msbFirst {bits : List Bool} {k : Nat} (h : bits.length = 8 * k) (v : Word) :
    codeword (bits ++ msbFirst 8 v) k = v.setWidth 8 := by
  apply BitVec.eq_of_getLsbD_eq
  intro j hj
  have hidx : 8 * k + (7 - j) - bits.length = 7 - j := by omega
  have hbit : 8 - 1 - (7 - j) = j := by omega
  rw [getLsbD_codeword _ _ hj, List.getD_append_right _ _ _ _ (by omega), hidx, List.getD_eq_getElem?_getD,
    getElem?_msbFirst v (by omega), hbit, BitVec.getLsbD_setWidth]
  simp [hj]

/-- Settles O47: the byte's bits come after `k` whole codewords, most significant first. -/
theorem appendedByteIsCodeword : Obligations.AppendedByteIsCodeword := by
  intro s t b k hs hb hlen h hc
  rw [buf_of_completed_bbAppend hs h hc]
  exact ⟨codeword_append_msbFirst hlen s.arg, fun j hj => codeword_append_left (by omega) _⟩

end Sys2Proof.Machine
end

section
/-! SUPPORT. O1, O2, O3: the fields of a word, the words of the formats R72 to R74, and what the two make of each row of R76. All
of it is said of numbers, so that a word in a format is a sum and a field of it is a quotient and a remainder. -/

namespace Sys2Proof

open Laws Machine

variable {w mask pattern : Word} {opc : BitVec 8} {i : Instr} {r : OpcodeRow}

/-! ### The fields as numbers (R71, R75) -/

theorem toNat_bits (start len : Nat) : (w.extractLsb' start len).toNat = w.toNat / 2 ^ start % 2 ^ len := by
  rw [BitVec.extractLsb'_toNat, Nat.shiftRight_eq_div_pow]

theorem toNat_fieldOpc (w : Word) : (fieldOpc w).toNat = w.toNat / 2 ^ 24 := by
  have hlt : w.toNat < 2 ^ 32 := w.isLt
  rw [fieldOpc, toNat_bits]
  omega

theorem fieldB_eq (w : Word) : fieldB w = w.toNat / 2 ^ 20 % 2 ^ 4 := toNat_bits 20 4

theorem fieldS_eq (w : Word) : fieldS w = w.toNat / 2 ^ 16 % 2 ^ 4 := toNat_bits 16 4

theorem fieldW_eq (w : Word) : fieldW w = w.toNat / 2 ^ 8 % 2 ^ 6 := toNat_bits 8 6

theorem toNat_fieldA (w : Word) : (fieldA w).toNat = w.toNat / 2 ^ 8 % 2 ^ 8 := toNat_bits 8 8

theorem toNat_fieldC (w : Word) : (fieldC w).toNat = w.toNat % 2 ^ 8 := by
  rw [fieldC, toNat_bits, Nat.pow_zero, Nat.div_one]

/-! ### The formats as numbers (R72, R73, R74) -/

theorem toNat_formatB (opc : BitVec 8) (b src n : Nat) : (formatB opc b src n).toNat =
    opc.toNat * 2 ^ 24 + b % 2 ^ 4 * 2 ^ 20 + src % 2 ^ 4 * 2 ^ 16 + n % 2 ^ 6 * 2 ^ 8 := by
  simp only [formatB, toNat_append_eq_add, BitVec.toNat_ofNat]
  omega

theorem toNat_formatG (opc : BitVec 8) (a c : Byte) :
    (formatG opc a c).toNat = opc.toNat * 2 ^ 24 + a.toNat * 2 ^ 8 + c.toNat := by
  simp only [formatG, toNat_append_eq_add, BitVec.toNat_ofNat]
  omega

/-! ### Encode, then take the fields -/

theorem fieldB_formatB {b : Nat} (hb : b < 16) (src n : Nat) : fieldB (formatB opc b src n) = b := by
  rw [fieldB_eq, toNat_formatB]
  omega

theorem fieldS_formatB {src : Nat} (hs : src < 16) (b n : Nat) : fieldS (formatB opc b src n) = src := by
  rw [fieldS_eq, toNat_formatB]
  omega

theorem fieldW_formatB {n : Nat} (hn : n < 64) (b src : Nat) : fieldW (formatB opc b src n) = n := by
  rw [fieldW_eq, toNat_formatB]
  omega

theorem fieldA_formatG (a c : Byte) : fieldA (formatG opc a c) = a := by
  apply BitVec.eq_of_toNat_eq
  rw [toNat_fieldA, toNat_formatG]
  omega

theorem fieldC_formatG (a c : Byte) : fieldC (formatG opc a c) = c := by
  apply BitVec.eq_of_toNat_eq
  rw [toNat_fieldC, toNat_formatG]
  omega

/-- The operands of a well-formed command come back from its word whole. -/
theorem withFields_encode (h : i.wellFormed = true) : (opOf i).withFields (encode i) = i := by
  cases i with
  | nop | stClr | rsClr => rfl
  | bbClear b | bbLen b | bbRead b =>
    have hb : b < 16 := by simpa [Instr.wellFormed, bufferField] using h
    simp only [opOf, Op.withFields, encode, fieldB_formatB hb]
  | bbAppend b n =>
    obtain ⟨hb, hn⟩ : b < 16 ∧ n < 64 := by simpa [Instr.wellFormed, bufferField, widthField] using h
    simp only [opOf, Op.withFields, encode, fieldB_formatB hb, fieldW_formatB hn]
  | bbAppendBuf b src | bbClone b src =>
    obtain ⟨hb, hs⟩ : b < 16 ∧ src < 16 := by simpa [Instr.wellFormed, bufferField] using h
    simp only [opOf, Op.withFields, encode, fieldB_formatB hb, fieldS_formatB hs]
  | gfMul a c => simp only [opOf, Op.withFields, encode, fieldA_formatG, fieldC_formatG]
  | rsFeed d => simp only [opOf, Op.withFields, encode, fieldC_formatG]
  | rsDiv n | rsRdrem n | rsRddiv n =>
    have hn : n < 2 ^ 8 := by simpa [Instr.wellFormed, byteField] using h
    simp only [opOf, Op.withFields, encode, fieldC_formatG, BitVec.toNat_ofNat, Nat.mod_eq_of_lt hn]

/-- The word of every command is accepted by the command's own row. -/
theorem encode_accepted (i : Instr) : EncodeAccepted.Statement i := by
  cases i with
  | nop => exact EncodeAccepted.nop
  | stClr => exact EncodeAccepted.stClr
  | bbClear b => exact EncodeAccepted.bbClear b
  | bbAppend b n => exact EncodeAccepted.bbAppend b n
  | bbAppendBuf b src => exact EncodeAccepted.bbAppendBuf b src
  | bbClone b src => exact EncodeAccepted.bbClone b src
  | bbLen b => exact EncodeAccepted.bbLen b
  | bbRead b => exact EncodeAccepted.bbRead b
  | gfMul a c => exact EncodeAccepted.gfMul a c
  | rsDiv n => exact EncodeAccepted.rsDiv n
  | rsClr => exact EncodeAccepted.rsClr
  | rsFeed d => exact EncodeAccepted.rsFeed d
  | rsRdrem j => exact EncodeAccepted.rsRdrem j
  | rsRddiv j => exact EncodeAccepted.rsRddiv j

/-- Settles O1: the command's own row accepts its word, and the word's fields are the operands. -/
theorem decodeInvertsEncode : Obligations.DecodeInvertsEncode := by
  intro i hi
  obtain ⟨r, hr, hop, ha⟩ := encode_accepted i
  rw [decode_of_accepts hr ha, hop, withFields_encode hi]

/-! ### Take the fields, then encode -/

theorem accepts_iff : r.accepts w = true ↔ w &&& r.mask = r.pattern := by
  simp [OpcodeRow.accepts]

/-- Where the mask has only ones, the word has the pattern's bits. -/
theorem extractLsb'_of_and (h : w &&& mask = pattern) {start len : Nat}
    (hm : mask.extractLsb' start len = BitVec.allOnes len) :
    w.extractLsb' start len = pattern.extractLsb' start len := by
  rw [← h, BitVec.extractLsb'_and, hm, BitVec.and_allOnes]

theorem toNat_formatN (opc : BitVec 8) : (formatN opc).toNat = opc.toNat * 2 ^ 24 := by
  rw [formatN, toNat_append_eq_add, BitVec.toNat_zero, Nat.add_zero]

/-- A mask that covers the OPC fixes it (R78). -/
theorem opc_of_and (h : w &&& mask = formatN opc) (hm : mask.extractLsb' 24 8 = BitVec.allOnes 8) :
    w.toNat / 2 ^ 24 = opc.toNat := by
  rw [← toNat_fieldOpc, fieldOpc, extractLsb'_of_and h hm, toNat_bits, toNat_formatN]
  omega

/-- The reserved and unused bits below the OPC that a mask covers are 0 (R79). -/
theorem zero_of_and (h : w &&& mask = formatN opc) {start len : Nat}
    (hm : mask.extractLsb' start len = BitVec.allOnes len) (hle : start + len ≤ 24) :
    w.toNat / 2 ^ start % 2 ^ len = 0 := by
  obtain ⟨k, hk⟩ := Nat.exists_eq_add_of_le hle
  have hpow : opc.toNat * 2 ^ 24 = opc.toNat * 2 ^ k * 2 ^ len * 2 ^ start := by
    rw [hk, Nat.pow_add, Nat.pow_add]
    ring
  rw [← toNat_bits, extractLsb'_of_and h hm, toNat_bits, toNat_formatN, hpow,
    Nat.mul_div_cancel _ (Nat.two_pow_pos start), Nat.mul_mod_left]

/-- Rows NOP, ST_CLR and RS_CLR. -/
theorem formatN_of_and (h : w &&& 0xFFFFFFFF = formatN opc) : formatN opc = w := by
  rw [← h]
  exact BitVec.and_allOnes

/-- Rows BB_CLEAR, BB_LEN and BB_READ. -/
theorem formatB_fieldB (h : w &&& 0xFF0FFFFF = formatN opc) : formatB opc (fieldB w) 0 0 = w := by
  have hopc := opc_of_and h (by decide)
  have hlow := zero_of_and h (start := 0) (len := 20) (by decide) (by decide)
  apply BitVec.eq_of_toNat_eq
  rw [toNat_formatB, fieldB_eq]
  omega

/-- Row BB_APPEND. -/
theorem formatB_fieldB_fieldW (h : w &&& 0xFF0FC0FF = formatN opc) : formatB opc (fieldB w) 0 (fieldW w) = w := by
  have hopc := opc_of_and h (by decide)
  have hmid := zero_of_and h (start := 14) (len := 6) (by decide) (by decide)
  have hlow := zero_of_and h (start := 0) (len := 8) (by decide) (by decide)
  apply BitVec.eq_of_toNat_eq
  rw [toNat_formatB, fieldB_eq, fieldW_eq]
  omega

/-- Rows BB_APPENDBUF and BB_CLONE. -/
theorem formatB_fieldB_fieldS (h : w &&& 0xFF00FFFF = formatN opc) : formatB opc (fieldB w) (fieldS w) 0 = w := by
  have hopc := opc_of_and h (by decide)
  have hlow := zero_of_and h (start := 0) (len := 16) (by decide) (by decide)
  apply BitVec.eq_of_toNat_eq
  rw [toNat_formatB, fieldB_eq, fieldS_eq]
  omega

/-- Row GF_MUL. -/
theorem formatG_fieldA_fieldC (h : w &&& 0xFFFF0000 = formatN opc) : formatG opc (fieldA w) (fieldC w) = w := by
  have hopc := opc_of_and h (by decide)
  have hmid := zero_of_and h (start := 16) (len := 8) (by decide) (by decide)
  apply BitVec.eq_of_toNat_eq
  rw [toNat_formatG, toNat_fieldA, toNat_fieldC]
  omega

/-- Row RS_FEED. -/
theorem formatG_fieldC (h : w &&& 0xFFFFFF00 = formatN opc) : formatG opc 0 (fieldC w) = w := by
  have hopc := opc_of_and h (by decide)
  have hmid := zero_of_and h (start := 8) (len := 16) (by decide) (by decide)
  apply BitVec.eq_of_toNat_eq
  rw [toNat_formatG, toNat_fieldC, BitVec.ofNat_eq_ofNat, BitVec.toNat_zero]
  omega

/-- Rows RS_DIV, RS_RDREM and RS_RDDIV. -/
theorem formatG_ofNat_fieldC (h : w &&& 0xFFFFFF00 = formatN opc) :
    formatG opc 0 (BitVec.ofNat 8 (fieldC w).toNat) = w := by
  rw [BitVec.ofNat_toNat, BitVec.setWidth_eq, formatG_fieldC h]

/-- A row that accepts a word leaves no bit of it outside the row's pattern and fields. -/
theorem encode_withFields (hr : r ∈ opcodeMap) (ha : r.accepts w = true) : encode (r.op.withFields w) = w := by
  have h : w &&& r.mask = r.pattern := accepts_iff.mp ha
  simp only [opcodeMap, List.mem_cons, List.not_mem_nil, or_false] at hr
  obtain rfl | rfl | rfl | rfl | rfl | rfl | rfl | rfl | rfl | rfl | rfl | rfl | rfl | rfl := hr
  · exact formatN_of_and h
  · exact formatN_of_and h
  · exact formatB_fieldB h
  · exact formatB_fieldB_fieldW h
  · exact formatB_fieldB_fieldS h
  · exact formatB_fieldB_fieldS h
  · exact formatB_fieldB h
  · exact formatB_fieldB h
  · exact formatG_fieldA_fieldC h
  · exact formatG_ofNat_fieldC h
  · exact formatN_of_and h
  · exact formatG_fieldC h
  · exact formatG_ofNat_fieldC h
  · exact formatG_ofNat_fieldC h

/-- What is read from a field fits it. -/
theorem withFields_wellFormed (op : Op) (w : Word) : (op.withFields w).wellFormed = true := by
  have hb : fieldB w < 16 := BitVec.isLt _
  have hs : fieldS w < 16 := BitVec.isLt _
  have hn : fieldW w < 64 := BitVec.isLt _
  have hc : (fieldC w).toNat < 256 := BitVec.isLt _
  cases op <;> simp [Op.withFields, Instr.wellFormed, bufferField, widthField, byteField, hb, hs, hn, hc]

/-- Settles O2: the row that accepts the word reads fields that fit, and pattern and fields make up the word. -/
theorem encodeInvertsDecode : Obligations.EncodeInvertsDecode := by
  intro w i h
  obtain ⟨r, hr, ha, rfl⟩ := accepts_of_decode h
  exact ⟨withFields_wellFormed r.op w, encode_withFields hr ha⟩

/-! ### Row by row (R76) -/

@[simp] theorem opOf_withFields (op : Op) (w : Word) : opOf (op.withFields w) = op := by
  cases op <;> rfl

/-- Each mnemonic has one row. -/
theorem row_of_op : ∀ r ∈ opcodeMap, ∀ r' ∈ opcodeMap, r.op = r'.op → r = r' := by decide

/-- A word decodes to a command exactly when the command's row accepts it (R78) and the operands are the row's fields (R75),
said as `P`. -/
theorem decode_iff_of_row (op : Op) (hr : ⟨op, pattern, mask⟩ ∈ opcodeMap) (hop : opOf i = op) {P : Prop}
    (hP : i = op.withFields w ↔ P) : decode w = .ok i ↔ w &&& mask = pattern ∧ P := by
  rw [← hP]
  constructor
  · intro h
    obtain ⟨r, hr', ha, rfl⟩ := accepts_of_decode h
    obtain rfl : r = ⟨op, pattern, mask⟩ := row_of_op r hr' _ hr (by simpa using hop)
    exact ⟨accepts_iff.mp ha, rfl⟩
  · rintro ⟨h, hi⟩
    rw [decode_of_accepts hr (accepts_iff.mpr h), ← hi]

/-- A command without operands is decided by its row alone. -/
theorem decode_iff_of_row_of_noFields (op : Op) (hr : ⟨op, pattern, mask⟩ ∈ opcodeMap) (hi : op.withFields w = i) :
    decode w = .ok i ↔ w &&& mask = pattern :=
  (decode_iff_of_row op hr (hi ▸ opOf_withFields op w) (iff_true_intro hi.symm)).trans (and_iff_left trivial)

/-- Settles O3: per row, the row stands in the map, and its operands are its fields as numbers. -/
theorem opcodeMapDecidesDecoding : Obligations.OpcodeMapDecidesDecoding := by
  intro w
  refine ⟨decode_iff_of_row_of_noFields .nop (by decide) rfl,
    decode_iff_of_row_of_noFields .stClr (by decide) rfl,
    fun b => decode_iff_of_row .bbClear (by decide) rfl ?_,
    fun b n => decode_iff_of_row .bbAppend (by decide) rfl ?_,
    fun b c => decode_iff_of_row .bbAppendBuf (by decide) rfl ?_,
    fun b c => decode_iff_of_row .bbClone (by decide) rfl ?_,
    fun b => decode_iff_of_row .bbLen (by decide) rfl ?_,
    fun b => decode_iff_of_row .bbRead (by decide) rfl ?_,
    fun a c => decode_iff_of_row .gfMul (by decide) rfl ?_,
    fun n => decode_iff_of_row .rsDiv (by decide) rfl ?_,
    decode_iff_of_row_of_noFields .rsClr (by decide) rfl,
    fun d => decode_iff_of_row .rsFeed (by decide) rfl ?_,
    fun j => decode_iff_of_row .rsRdrem (by decide) rfl ?_,
    fun j => decode_iff_of_row .rsRddiv (by decide) rfl ?_⟩
  all_goals
    simp [Op.withFields, fieldB_eq, fieldS_eq, fieldW_eq, toNat_fieldA, toNat_fieldC, ← BitVec.toNat_inj]

end Sys2Proof
end

section
/-! SUPPORT. O4, O5: the two ways in which a word is illegal (R79), and the encoded examples (R83). -/

namespace Sys2Proof.Machine

variable {w : Word}

theorem fieldOpc_of_accepts {r : OpcodeRow} (hr : r ∈ opcodeMap) (ha : r.accepts w = true) :
    fieldOpc r.pattern = fieldOpc w := by
  have h : (w &&& 0xFF000000).extractLsb' 24 8 = (r.pattern &&& 0xFF000000).extractLsb' 24 8 :=
    congrArg _ (opc_of_accepts hr ha)
  have hmask : (0xFF000000 : Word).extractLsb' 24 8 = BitVec.allOnes 8 := by decide
  rw [BitVec.extractLsb'_and, BitVec.extractLsb'_and, hmask, BitVec.and_allOnes, BitVec.and_allOnes] at h
  exact h.symm

/-- The decoder's answer for a word that no row accepts. -/
theorem decode_of_rejected (h : ∀ r ∈ opcodeMap, r.accepts w = false) : decode w =
    .error (if ∀ r ∈ opcodeMap, fieldOpc r.pattern ≠ fieldOpc w then .reservedOpcode else .reservedBits) := by
  have hfind : (opcodeMap.find? fun r => r.accepts w) = none := List.find?_eq_none.mpr (by simpa using h)
  by_cases hopc : ∀ r ∈ opcodeMap, fieldOpc r.pattern ≠ fieldOpc w
  · rw [if_pos hopc, decode, hfind]
    exact if_neg (by simpa using hopc)
  · rw [if_neg hopc, decode, hfind]
    exact if_pos (by simpa using hopc)

/-- The first bullet of R79: no row has the word's OPC. -/
theorem decode_eq_reservedOpcode_iff :
    decode w = .error .reservedOpcode ↔ ∀ r ∈ opcodeMap, fieldOpc r.pattern ≠ fieldOpc w := by
  constructor
  · intro h
    rw [decode_of_rejected (decode_error_iff.mp ⟨_, h⟩)] at h
    by_contra hopc
    rw [if_neg hopc] at h
    cases h
  · intro hopc
    have hrej : ∀ r ∈ opcodeMap, r.accepts w = false := fun r hr =>
      Bool.eq_false_iff.mpr fun ha => hopc r hr (fieldOpc_of_accepts hr ha)
    rw [decode_of_rejected hrej, if_pos hopc]

/-- The second bullet of R79: some row has the word's OPC, and no row accepts the word. -/
theorem decode_eq_reservedBits_iff : decode w = .error .reservedBits ↔
    (¬∀ r ∈ opcodeMap, fieldOpc r.pattern ≠ fieldOpc w) ∧ ∀ r ∈ opcodeMap, r.accepts w = false := by
  constructor
  · intro h
    refine ⟨fun hopc => ?_, decode_error_iff.mp ⟨_, h⟩⟩
    rw [decode_eq_reservedOpcode_iff.mpr hopc] at h
    cases h
  · rintro ⟨hopc, hrej⟩
    rw [decode_of_rejected hrej, if_neg hopc]

/-- "No row accepts the word", said of the columns "match" and "mask" (R78). -/
theorem rejected_iff (w : Word) : (∀ r ∈ opcodeMap, r.accepts w = false) ↔
    ∀ row ∈ opcodeMap.map fun r => (r.pattern, r.mask), w &&& row.2 ≠ row.1 := by
  simp only [List.forall_mem_map, ← Bool.not_eq_true, accepts_iff, ne_eq]

/-- The column OPC of R76. -/
theorem opcs_of_opcodeMap : (opcodeMap.map fun r => (fieldOpc r.pattern).toNat) =
    [0x00, 0x01, 0x10, 0x11, 0x12, 0x13, 0x14, 0x15, 0x20, 0x30, 0x31, 0x32, 0x33, 0x34] := by decide

/-- The 242 OPC values that R76 does not list, as R79 gives them. -/
theorem unlisted_iff (w : Word) : (∀ r ∈ opcodeMap, fieldOpc r.pattern ≠ fieldOpc w) ↔
    (0x02 ≤ w.toNat / 2 ^ 24 ∧ w.toNat / 2 ^ 24 ≤ 0x0F) ∨ (0x16 ≤ w.toNat / 2 ^ 24 ∧ w.toNat / 2 ^ 24 ≤ 0x1F) ∨
      (0x21 ≤ w.toNat / 2 ^ 24 ∧ w.toNat / 2 ^ 24 ≤ 0x2F) ∨ 0x35 ≤ w.toNat / 2 ^ 24 := by
  have hnum : (∀ r ∈ opcodeMap, fieldOpc r.pattern ≠ fieldOpc w) ↔
      ∀ o ∈ opcodeMap.map fun r => (fieldOpc r.pattern).toNat, o ≠ (fieldOpc w).toNat := by
    simp only [List.forall_mem_map, ne_eq, BitVec.toNat_inj]
  rw [hnum, opcs_of_opcodeMap, toNat_fieldOpc]
  simp only [List.forall_mem_cons, List.not_mem_nil, false_implies, implies_true, and_true]
  omega

/-- Settles O4: the two bullets are the decoder's two answers, and both raise. -/
theorem illegalWordsRaiseIllegalCommand : Obligations.IllegalWordsRaiseIllegalCommand := by
  refine ⟨fun w => ?_, by decide, by decide, by decide⟩
  intro opc unlisted matchesNoRow
  have hopcode : decode w = .error .reservedOpcode ↔ unlisted := decode_eq_reservedOpcode_iff.trans (unlisted_iff w)
  have hno : (∀ r ∈ opcodeMap, r.accepts w = false) ↔ matchesNoRow := rejected_iff w
  have hbits : decode w = .error .reservedBits ↔ ¬unlisted ∧ matchesNoRow :=
    decode_eq_reservedBits_iff.trans (and_congr (not_congr (unlisted_iff w)) hno)
  refine ⟨hopcode, hbits, fun hill s => ?_⟩
  obtain ⟨e, he⟩ : ∃ e, decode w = .error e :=
    hill.elim (fun hu => ⟨_, hopcode.mpr hu⟩) (fun hm => decode_error_iff.mpr (hno.mpr hm))
  rw [executeWord_of_error he, raise, raisedWith_eq]
  rfl

/-- Settles O5: the words are decoded, and their encoding follows as for every legal word (O2); a width of 32 is refused whether
or not the instance has the buffer. -/
theorem specExampleWords : Obligations.SpecExampleWords := by
  refine ⟨fun p hp => ?_, fun s => ?_⟩
  · have hd : decode p.2 = .ok p.1 := by revert p; decide
    obtain ⟨-, he⟩ := encodeInvertsDecode _ _ hd
    exact ⟨hd, he⟩
  · obtain ⟨t, ht⟩ := exec_isNext (.bbAppend 0 32) s
    rw [ht]
    obtain ⟨-, rfl⟩ | ⟨⟨-, hle, -⟩, -, -⟩ | ⟨⟨-, hle, -⟩, -, -⟩ := execBbAppend_cases ht
    · rw [raisedWith_eq]; rfl
    · omega
    · omega

end Sys2Proof.Machine
end

section
/-! SUPPORT. O20 to O25 and O46: what each bit buffer command does (R101 to R106), and what a sequence of appends leaves (R107). -/

namespace Sys2Proof.Machine

variable {s t m : State} {b : Nat}

/-! ### How a command completes -/

/-- The state a completing command leaves, with STATUS as a word: CODE is 0, and ERR keeps its value (R204). -/
theorem completed_eq (s : State) : s.completed = { s with status := s.status &&& 0xFFFFFFF0#32 } := by
  simp only [State.completed, statusSetCode_ok, BitVec.ofNat_eq_ofNat]

/-! ### BB_CLEAR (R101) -/

/-- Settles O20: the one check is on the index. -/
theorem bbClearEmptiesBuffer : Obligations.BbClearEmptiesBuffer := by
  refine ⟨fun w hw => ?_, fun s b => ?_⟩
  · obtain ⟨-, -, hclear, -⟩ := opcodeMapDecidesDecoding w
    exact (hclear _).mpr ⟨hw, rfl⟩
  · obtain ⟨t, ht⟩ := exec_isNext (.bbClear b) s
    rw [ht]
    obtain ⟨hbad, rfl⟩ | ⟨hb, rfl⟩ := execBbClear_cases ht
    · exact ⟨by omega, fun _ => by rw [raisedWith_eq]; rfl⟩
    · exact ⟨fun _ => by rw [completed_eq]; rfl, by omega⟩

/-! ### BB_APPEND (R102) -/

/-- `(v >> W) = 0` says that `v` is below `2^W` (R102). -/
theorem ushiftRight_eq_zero_iff (v : Word) (w : Nat) : v >>> w = 0 ↔ v.toNat < 2 ^ w := by
  rw [← BitVec.toNat_inj, BitVec.toNat_ushiftRight, Nat.shiftRight_eq_div_pow]
  exact Nat.div_eq_zero_iff_lt (Nat.two_pow_pos w)

/-- Settles O21: the three outcomes of the command exclude each other, and each is one clause. -/
theorem bbAppendAppendsValue : Obligations.BbAppendAppendsValue := by
  refine ⟨fun w hw => ?_, fun s b w => ?_⟩
  · obtain ⟨-, -, -, happend, -⟩ := opcodeMapDecidesDecoding w
    exact (happend _ _).mpr ⟨hw, rfl, rfl⟩
  · obtain ⟨t, ht⟩ := exec_isNext (.bbAppend b w) s
    rw [ht]
    have hcases := execBbAppend_cases ht
    rw [ne_eq, ushiftRight_eq_zero_iff] at hcases
    obtain ⟨hbad, rfl⟩ | ⟨hargs, hfull, rfl⟩ | ⟨hargs, hroom, rfl⟩ := hcases
    · exact ⟨by omega, fun _ => by rw [raisedWith_eq]; rfl, by omega⟩
    · exact ⟨by omega, by omega, fun _ _ _ _ => by rw [raisedWith_eq]; rfl⟩
    · exact ⟨fun _ _ _ _ => by rw [completed_eq]; rfl, by omega, by omega⟩

/-! ### BB_APPENDBUF (R103) -/

/-- Settles O22: the three outcomes of the command exclude each other, and each is one clause. -/
theorem bbAppendBufAppendsSource : Obligations.BbAppendBufAppendsSource := by
  refine ⟨fun w hw => ?_, fun s b src => ?_⟩
  · obtain ⟨-, -, -, -, happendBuf, -⟩ := opcodeMapDecidesDecoding w
    exact (happendBuf _ _).mpr ⟨hw, rfl, rfl⟩
  · obtain ⟨t, ht⟩ := exec_isNext (.bbAppendBuf b src) s
    rw [ht]
    obtain ⟨hbad, rfl⟩ | ⟨hargs, hfull, rfl⟩ | ⟨hargs, hroom, rfl⟩ := execBbAppendBuf_cases ht
    · exact ⟨by omega, fun _ => by rw [raisedWith_eq]; rfl, by omega⟩
    · exact ⟨by omega, by omega, fun _ _ _ _ => by rw [raisedWith_eq]; rfl⟩
    · exact ⟨fun _ _ _ _ => by rw [completed_eq]; rfl, by omega, by omega⟩

/-! ### BB_CLONE (R104) -/

/-- A clone between two buffers of the instance completes, whether or not they differ. -/
theorem exec_bbClone_of_lt {src : Nat} (hb : b < s.params.nb) (hsrc : src < s.params.nb) :
    exec (.bbClone b src) s = .next (s.setBuf b (s.buf src)).completed := by
  obtain ⟨t, ht⟩ := exec_isNext (.bbClone b src) s
  obtain ⟨hbad, -⟩ | ⟨-, rfl⟩ := execBbClone_cases ht
  · omega
  · exact ht

/-- Settles O23: a clone onto itself writes back what stands there. -/
theorem bbCloneCopiesSource : Obligations.BbCloneCopiesSource := by
  refine ⟨fun w hw => ?_, fun s b src => ⟨fun hb hsrc => ?_, fun hb => ?_, fun hbad => ?_⟩⟩
  · obtain ⟨-, -, -, -, -, hclone, -⟩ := opcodeMapDecidesDecoding w
    exact (hclone _ _).mpr ⟨hw, rfl, rfl⟩
  · rw [exec_bbClone_of_lt hb hsrc, completed_eq]
    rfl
  · rw [exec_bbClone_of_lt hb hb, setBuf_buf_self, completed_eq]
  · obtain ⟨t, ht⟩ := exec_isNext (.bbClone b src) s
    obtain ⟨-, rfl⟩ | ⟨hok, -⟩ := execBbClone_cases ht
    · rw [ht, raisedWith_eq]
      rfl
    · omega

/-! ### BB_LEN (R105) -/

/-- Settles O24: the one check is on the index. -/
theorem bbLenReturnsLength : Obligations.BbLenReturnsLength := by
  refine ⟨fun w hw => ?_, fun s b => ?_⟩
  · obtain ⟨-, -, -, -, -, -, hlen, -⟩ := opcodeMapDecidesDecoding w
    exact (hlen _).mpr ⟨hw, rfl⟩
  · obtain ⟨t, ht⟩ := exec_isNext (.bbLen b) s
    rw [ht]
    obtain ⟨hbad, rfl⟩ | ⟨hb, rfl⟩ := execBbLen_cases ht
    · exact ⟨by omega, fun _ => by rw [raisedWith_eq]; rfl⟩
    · exact ⟨fun _ => by rw [completed_eq]; rfl, by omega⟩

/-! ### BB_READ (R106) -/

/-- Settles O25: an index that is there returns its bit, and the two raises exclude each other. -/
theorem bbReadReturnsBit : Obligations.BbReadReturnsBit := by
  refine ⟨fun w hw => ?_, fun s b => ⟨fun hb bit hbit => ?_, ?_⟩⟩
  · obtain ⟨-, -, -, -, -, -, -, hread, -⟩ := opcodeMapDecidesDecoding w
    exact (hread _).mpr ⟨hw, rfl⟩
  · rw [exec_bbRead_of_getElem? hb hbit, completed_eq]
    rfl
  · obtain ⟨t, ht⟩ := exec_isNext (.bbRead b) s
    rw [ht]
    obtain ⟨hbad, rfl⟩ | ⟨hb, hpast, rfl⟩ | ⟨hb, hthere, -⟩ := execBbRead_cases ht
    · exact ⟨fun _ => by rw [raisedWith_eq]; rfl, by omega⟩
    · exact ⟨by omega, fun _ _ => by rw [raisedWith_eq]; rfl⟩
    · exact ⟨by omega, by omega⟩

/-! ### Sequences of appends (R107) -/

/-- The big-endian binary form of a value is the order in which BB_APPEND takes its bits (R56). -/
theorem bigEndian_toNat (w : Nat) (v : Word) : bigEndian w v.toNat = msbFirst w v := by
  induction w with
  | zero => rfl
  | succ w ih =>
    have hidx : ∀ k, w + 1 - 1 - (k + 1) = w - 1 - k := by omega
    rw [bigEndian, ih, msbFirst, msbFirst, List.range_succ_eq_map, List.map_cons, List.map_map]
    simp only [Function.comp_def, Nat.succ_eq_add_one, hidx]
    rfl

/-- From `s` to `t`, `bits` have come to the end of buffer `b`, and no other buffer has changed. -/
def State.Appended (s : State) (b : Nat) (bits : List Bool) (t : State) : Prop :=
  t.buf b = s.buf b ++ bits ∧ ∀ c, c ≠ b → t.buf c = s.buf c

theorem State.Appended.nil (s : State) (b : Nat) : s.Appended b [] s :=
  ⟨(List.append_nil _).symm, fun _ _ => rfl⟩

theorem State.Appended.trans {bits bits' : List Bool} (h : s.Appended b bits m) (h' : m.Appended b bits' t) :
    s.Appended b (bits ++ bits') t := by
  obtain ⟨hb, hother⟩ := h
  obtain ⟨hb', hother'⟩ := h'
  exact ⟨by rw [hb', hb, List.append_assoc], fun c hc => (hother' c hc).trans (hother c hc)⟩

/-- A completing BB_APPEND appends the big-endian binary form of ARG (R102). -/
theorem appended_of_completed_bbAppend {w : Nat} (hs : s.Wf) (h : exec (.bbAppend b w) s = .next t)
    (hc : statusCode t.status = 0) : s.Appended b (bigEndian w s.arg.toNat) t := by
  obtain ⟨hother, -⟩ := commandsChangeOnlyDestinationBuffer _ _ _ h
  rw [bigEndian_toNat]
  exact ⟨buf_of_completed_bbAppend hs h hc, fun c hne => hother c fun heq => hne (Option.some.inj heq).symm⟩

/-- A completing BB_APPENDBUF appends its source as it stands before the command (R103). -/
theorem appended_of_completed_bbAppendBuf {src : Nat} (hs : s.Wf) (h : exec (.bbAppendBuf b src) s = .next t)
    (hc : statusCode t.status = 0) : s.Appended b (s.buf src) t := by
  obtain ⟨hother, -⟩ := commandsChangeOnlyDestinationBuffer _ _ _ h
  refine ⟨?_, fun c hne => hother c fun heq => hne (Option.some.inj heq).symm⟩
  obtain ⟨-, rfl⟩ | ⟨-, -, rfl⟩ | ⟨⟨hb, -⟩, -, rfl⟩ := execBbAppendBuf_cases h
  · exact absurd hc (statusCode_raisedWith_ne_zero s (by decide))
  · exact absurd hc (statusCode_raisedWith_ne_zero s (by decide))
  · obtain ⟨-, hlen, -⟩ := hs
    rw [buf_completed, buf_setBuf_same s (hlen.symm ▸ hb)]

/-- Appends that all complete append their pieces, one after another. The invariant is carried along: it gives the buffer that
the next append writes. -/
theorem appended_of_appendsComplete {ps : List Piece} {bits : List Bool} (hs : s.Wf) (h : AppendsComplete b ps s t bits) :
    s.Appended b bits t := by
  induction ps generalizing s bits with
  | nil =>
    obtain ⟨rfl, rfl⟩ := h
    exact .nil t b
  | cons p ps ih =>
    cases p with
    | value w v =>
      obtain ⟨m, rest, hx, hc, rfl, hrest⟩ := h
      have harg : State.Wf { s with arg := v } := setArg_wf v hs
      have hpiece : s.Appended b (bigEndian w v.toNat) m := appended_of_completed_bbAppend harg hx hc
      exact hpiece.trans (ih (exec_wf hx harg) hrest)
    | buffer src =>
      obtain ⟨m, rest, hx, hc, rfl, hrest⟩ := h
      exact (appended_of_completed_bbAppendBuf hs hx hc).trans (ih (exec_wf hx hs) hrest)

/-- Settles O46: what stands in the buffer is what stood there, with the pieces after it. -/
theorem appendsConcatenatePieces : Obligations.AppendsConcatenatePieces := by
  intro b ps s t bits hs _ h
  obtain ⟨hbuf, hother⟩ := appended_of_appendsComplete hs h
  exact ⟨hbuf, fun hempty => by rw [hbuf, hempty, List.nil_append], by rw [hbuf, List.length_append], hother⟩

end Sys2Proof.Machine
end

section
/-! SUPPORT. O48, O50, O51: the loop of R131 read as Horner's rule, the field laws that follow from it (R133), the powers of α
(R134), and the carry-less product (R130). -/

namespace Sys2Proof.Machine

/-! ### The loop on the 8-bit register (R131) -/

/-- One doubling of R131, on the 8-bit register that holds the working value between two turns. -/
def gfDouble (z : Byte) : Byte := (z <<< 1) ^^^ (if z[7] then 0x1D#8 else 0#8)

@[simp] theorem gfDouble_zero : gfDouble 0#8 = 0#8 := by decide

theorem gfDouble_xor (a b : Byte) : gfDouble (a ^^^ b) = gfDouble a ^^^ gfDouble b := by
  have hreduce : (if (a ^^^ b)[7] then 0x1D#8 else 0#8) =
      (if a[7] then 0x1D#8 else 0#8) ^^^ (if b[7] then 0x1D#8 else 0#8) := by
    cases ha : a[7] <;> cases hb : b[7] <;> simp [ha, hb]
  rw [gfDouble, hreduce, BitVec.shiftLeft_xor_distrib, gfDouble, gfDouble]
  ac_rfl

/-- "After each doubling, `z < 256`" (R131): the reduction by 0x11D clears bit 8. -/
theorem setWidth_gfDouble (z : Byte) :
    (gfDouble z).setWidth 9 = (z.setWidth 9 <<< 1) ^^^ (if z[7] then 0x11D#9 else 0#9) := by
  apply BitVec.eq_of_getLsbD_eq
  intro j hj
  cases h : z[7] <;> interval_cases j <;> simp [gfDouble, h]

theorem gfMulStep_setWidth (x y z : Byte) (i : Nat) : gfMulStep x y (z.setWidth 9) i =
    (gfDouble z ^^^ if y.getLsbD i then x else 0#8).setWidth 9 := by
  have hadd : (if y.getLsbD i then x.setWidth 9 else 0#9) = (if y.getLsbD i then x else 0#8).setWidth 9 := by
    split <;> rfl
  simp [gfMulStep, setWidth_gfDouble, hadd, BitVec.setWidth_xor]

/-- The loop with the working value held in 8 bits. -/
theorem gfMul_eq_foldl (x y : Byte) : gfMul x y =
    [7, 6, 5, 4, 3, 2, 1, 0].foldl (fun z i => gfDouble z ^^^ if y.getLsbD i then x else 0#8) 0#8 := by
  have h := List.foldl_hom (BitVec.setWidth 9) (g₂ := gfMulStep x y) (l := [7, 6, 5, 4, 3, 2, 1, 0])
    (init := (0#8 : Byte)) (fun z i => gfMulStep_setWidth x y z i)
  rw [gfMul, show (0#9) = (0#8).setWidth 9 from rfl, h]
  simp only [BitVec.setWidth_setWidth_of_le, BitVec.setWidth_eq, Nat.reduceLeDiff]

theorem gfMul_zero_right (x : Byte) : gfMul x 0#8 = 0#8 := by
  simp [gfMul_eq_foldl]

/-- Horner's rule: the last turn of the loop doubles the product by the higher bits of `y`, and adds `x` for bit 0. -/
theorem gfMul_eq_double_shift (x y : Byte) :
    gfMul x y = gfDouble (gfMul x (y >>> 1)) ^^^ if y.getLsbD 0 then x else 0#8 := by
  simp [gfMul_eq_foldl, BitVec.getLsbD_ushiftRight]

/-- Every byte is reached from 0 by taking in one bit after another at its low end, as the loop scans `y`. -/
theorem byte_shift_induction {P : Byte → Prop} (zero : P 0#8) (shift : ∀ y : Byte, P (y >>> 1) → P y) (y : Byte) : P y := by
  by_cases hy : y = 0#8
  · exact hy ▸ zero
  · exact shift y (byte_shift_induction zero shift (y >>> 1))
termination_by y.toNat
decreasing_by
  have hpos : y.toNat ≠ 0 := fun h => hy (BitVec.eq_of_toNat_eq h)
  rw [BitVec.toNat_ushiftRight, Nat.shiftRight_eq_div_pow]
  omega

/-! ### The field laws (R133) -/

/-- The loop uses doubling and XOR only, so a map that commutes with both acts on its first factor. -/
theorem map_gfMul {f : Byte → Byte} (hxor : ∀ a b, f (a ^^^ b) = f a ^^^ f b)
    (hdouble : ∀ a, f (gfDouble a) = gfDouble (f a)) (x y : Byte) : f (gfMul x y) = gfMul (f x) y := by
  have hzero : f 0#8 = 0#8 := by simpa using hxor 0#8 0#8
  induction y using byte_shift_induction with
  | zero => rw [gfMul_zero_right, gfMul_zero_right, hzero]
  | shift y ih => rw [gfMul_eq_double_shift, hxor, hdouble, ih, apply_ite f, hzero, ← gfMul_eq_double_shift]

theorem gfMul_xor_left (a b y : Byte) : gfMul (a ^^^ b) y = gfMul a y ^^^ gfMul b y := by
  induction y using byte_shift_induction with
  | zero => simp only [gfMul_zero_right, BitVec.xor_zero]
  | shift y ih =>
    have hadd : (if y.getLsbD 0 then a ^^^ b else 0#8) =
        (if y.getLsbD 0 then a else 0#8) ^^^ (if y.getLsbD 0 then b else 0#8) := by split <;> rfl
    rw [gfMul_eq_double_shift, ih, gfDouble_xor, hadd, gfMul_eq_double_shift a y, gfMul_eq_double_shift b y]
    ac_rfl

theorem gfMul_gfDouble_left (x y : Byte) : gfMul (gfDouble x) y = gfDouble (gfMul x y) :=
  (map_gfMul gfDouble_xor (fun _ => rfl) x y).symm

theorem gfDouble_ushiftRight_one (y : Byte) : gfDouble (y >>> 1) ^^^ (if y.getLsbD 0 then 1#8 else 0#8) = y := by
  apply BitVec.eq_of_getLsbD_eq
  intro j hj
  cases h : y[0] <;> interval_cases j <;> simp [gfDouble, h]

theorem gfMul_one_left (y : Byte) : gfMul 1#8 y = y := by
  induction y using byte_shift_induction with
  | zero => exact gfMul_zero_right _
  | shift y ih => rw [gfMul_eq_double_shift, ih, gfDouble_ushiftRight_one]

/-- Multiplying by `c` from the right commutes with XOR and doubling, so it acts on the first factor of `gfMul a b`. -/
theorem gfMul_right_comm (a b c : Byte) : gfMul (gfMul a b) c = gfMul (gfMul a c) b :=
  map_gfMul (f := (gfMul · c)) (fun a b => gfMul_xor_left a b c) (fun a => gfMul_gfDouble_left a c) a b

theorem gfMul_comm (a b : Byte) : gfMul a b = gfMul b a := by
  simpa only [gfMul_one_left] using gfMul_right_comm 1#8 a b

theorem gfMul_assoc (a b c : Byte) : gfMul (gfMul a b) c = gfMul a (gfMul b c) :=
  calc gfMul (gfMul a b) c
      = gfMul (gfMul b a) c := by rw [gfMul_comm a b]
    _ = gfMul (gfMul b c) a := gfMul_right_comm b a c
    _ = gfMul a (gfMul b c) := gfMul_comm _ _

theorem gfMul_xor_right (a b c : Byte) : gfMul a (b ^^^ c) = gfMul a b ^^^ gfMul a c := by
  simp only [gfMul_comm a, gfMul_xor_left]

theorem gfMul_one_right (a : Byte) : gfMul a 1#8 = a := (gfMul_comm a 1#8).trans (gfMul_one_left a)

theorem gfMul_two_right (a : Byte) : gfMul a 2#8 = gfDouble a := by
  have h : gfMul 2#8 a = gfDouble (gfMul 1#8 a) := gfMul_gfDouble_left 1#8 a
  rw [gfMul_comm, h, gfMul_one_left]

/-! ### The powers of α (R134) -/

theorem alphaPow_eq_iterate (i : Nat) : alphaPow i = gfDouble^[i] 1#8 := by
  induction i with
  | zero => rfl
  | succ i ih =>
    rw [alphaPow, ih, Function.iterate_succ_apply']
    exact gfMul_two_right _

theorem alphaPow_add (i j : Nat) : alphaPow (i + j) = gfMul (alphaPow i) (alphaPow j) := by
  induction j with
  | zero => exact (gfMul_one_right _).symm
  | succ j ih => rw [← Nat.add_assoc, alphaPow, ih, gfMul_assoc, alphaPow]

theorem alphaPow_255 : alphaPow 255 = 1#8 := by
  rw [alphaPow_eq_iterate]
  decide +kernel

/-- Two powers whose exponents add up to 255 are inverse to each other. -/
theorem gfMul_alphaPow_inverse {i : Nat} (h : i ≤ 255) : gfMul (alphaPow (255 - i)) (alphaPow i) = 1#8 := by
  rw [← alphaPow_add, Nat.sub_add_cancel h, alphaPow_255]

theorem alphaPow_ne_zero {i : Nat} (h : i ≤ 255) : alphaPow i ≠ 0#8 := by
  intro hzero
  have hone := gfMul_alphaPow_inverse h
  rw [hzero, gfMul_zero_right] at hone
  exact absurd hone (by decide)

theorem alphaPow_254 : alphaPow 254 = 0x8E#8 :=
  calc alphaPow 254
      = gfMul (alphaPow 254) (gfMul 0x02#8 0x8E#8) := by
        rw [show gfMul 0x02#8 0x8E#8 = 1#8 by decide, gfMul_one_right]
    _ = gfMul (alphaPow 255) 0x8E#8 := (gfMul_assoc _ _ _).symm
    _ = 0x8E#8 := by rw [alphaPow_255, gfMul_one_left]

/-- α has order 255: the order divides 255, and no proper divisor of 255 brings the powers back to 1. -/
theorem minimalPeriod_gfDouble : Function.minimalPeriod gfDouble 1#8 = 255 := by
  have hdvd : Function.minimalPeriod gfDouble 1#8 ∣ 255 :=
    Function.IsPeriodicPt.minimalPeriod_dvd ((alphaPow_eq_iterate 255).symm.trans alphaPow_255)
  have hproper : ∀ d ∈ Nat.properDivisors 255, gfDouble^[d] 1#8 ≠ 1#8 := by decide +kernel
  by_contra hne
  have hlt : Function.minimalPeriod gfDouble 1#8 < 255 := lt_of_le_of_ne (Nat.le_of_dvd (by decide) hdvd) hne
  exact hproper _ (Nat.mem_properDivisors.mpr ⟨hdvd, hlt⟩) (Function.isPeriodicPt_minimalPeriod gfDouble 1#8)

theorem alphaPow_injOn : Set.InjOn alphaPow (Finset.range 255) := by
  intro i hi j hj h
  have hlt : ∀ k ∈ Finset.range 255, k < Function.minimalPeriod gfDouble 1#8 := fun k hk =>
    minimalPeriod_gfDouble ▸ Finset.mem_range.mp hk
  rw [alphaPow_eq_iterate, alphaPow_eq_iterate] at h
  exact (Function.iterate_eq_iterate_iff_of_lt_minimalPeriod (hlt i hi) (hlt j hj)).mp h

/-- The 255 powers differ and none is 0, so they are all of the 255 non-zero elements. -/
theorem exists_alphaPow_eq {x : Byte} (hx : x ≠ 0#8) : ∃ i < 255, alphaPow i = x := by
  have hpos : ∀ {y : Byte}, y ≠ 0#8 → y.toNat ∈ Finset.Ico 1 256 := fun {y} hy =>
    Finset.mem_Ico.mpr ⟨Nat.one_le_iff_ne_zero.mpr fun h => hy (BitVec.eq_of_toNat_eq h), y.isLt⟩
  have hmaps : Set.MapsTo (fun i => (alphaPow i).toNat) (Finset.range 255) (Finset.Ico 1 256) := fun i hi =>
    hpos (alphaPow_ne_zero (Finset.mem_range.mp hi).le)
  have hinj : Set.InjOn (fun i => (alphaPow i).toNat) (Finset.range 255) := fun i hi j hj h =>
    alphaPow_injOn hi hj (BitVec.eq_of_toNat_eq h)
  obtain ⟨i, hi, heq⟩ := Finset.surjOn_of_injOn_of_card_le _ hmaps hinj (by simp) (hpos hx)
  exact ⟨i, Finset.mem_range.mp hi, BitVec.eq_of_toNat_eq heq⟩

/-- Settles O51: the order of α is 255, which is the number of non-zero elements. -/
theorem alphaPowersReachEveryElement : Obligations.AlphaPowersReachEveryElement := by
  refine ⟨by decide, fun x hx => ?_, fun i hi => alphaPow_ne_zero hi.le, alphaPow_255, alphaPow_254, by decide⟩
  obtain ⟨i, hi, rfl⟩ := exists_alphaPow_eq hx
  exact ⟨i, hi, rfl, fun j hj h => alphaPow_injOn (Finset.mem_range.mpr hj) (Finset.mem_range.mpr hi) h⟩

/-- A non-zero factor is a power of α and so has an inverse, which takes a zero product to a zero second factor. -/
theorem gfMul_ne_zero {a b : Byte} (ha : a ≠ 0#8) (hb : b ≠ 0#8) : gfMul a b ≠ 0#8 := by
  obtain ⟨i, hi, rfl⟩ := exists_alphaPow_eq ha
  intro hzero
  apply hb
  calc b = gfMul (gfMul (alphaPow (255 - i)) (alphaPow i)) b := by rw [gfMul_alphaPow_inverse hi.le, gfMul_one_left]
    _ = gfMul (alphaPow (255 - i)) (gfMul (alphaPow i) b) := gfMul_assoc _ _ _
    _ = 0#8 := by rw [hzero, gfMul_zero_right]

/-- Settles O50: commutativity and associativity from the Horner form, and no zero divisors from the inverses of O51. -/
theorem gfMulFieldLaws : Obligations.GfMulFieldLaws :=
  ⟨gfMul_comm, gfMul_assoc, gfMul_xor_right, gfMul_zero_left, gfMul_one_left, fun _ _ => gfMul_ne_zero⟩

/-! ### The carry-less product (R130) -/

/-- The term of bit `i` of `b` in the carry-less product. -/
def carrylessTerm (a b i : Nat) : Nat := if b.testBit i then a <<< i else 0

theorem carrylessMul_eq_foldl (a b : Nat) :
    carrylessMul a b = (List.range 8).foldl (fun acc i => acc ^^^ carrylessTerm a b i) 0 := by
  have h : ∀ acc i, (if b.testBit i then acc ^^^ (a <<< i) else acc) = acc ^^^ carrylessTerm a b i := by
    intro acc i
    unfold carrylessTerm
    split <;> simp
  simp only [carrylessMul, h]

theorem carrylessTerm_shiftLeft (a b i : Nat) : carrylessTerm a (b >>> 1) i <<< 1 = carrylessTerm a b (i + 1) := by
  unfold carrylessTerm
  rw [Nat.testBit_shiftRight, Nat.add_comm 1 i]
  split <;> simp [Nat.shiftLeft_add]

/-- Horner's rule for the carry-less product. -/
theorem carrylessMul_eq_shift {a b : Nat} (hb : b < 2 ^ 8) :
    carrylessMul a b = carrylessMul a (b >>> 1) <<< 1 ^^^ if b.testBit 0 then a else 0 := by
  have h8 : carrylessTerm a b 8 = 0 := if_neg (by simp [Nat.testBit_lt_two_pow hb])
  have h0 : carrylessTerm a b 0 = if b.testBit 0 then a else 0 := rfl
  simp only [carrylessMul_eq_foldl, List.range_succ, List.range_zero, List.nil_append, List.cons_append, List.foldl_cons,
    List.foldl_nil, Nat.shiftLeft_xor_distrib, carrylessTerm_shiftLeft, Nat.reduceAdd, h8, ← h0, Nat.zero_xor, Nat.xor_zero]
  ac_rfl

theorem toNat_gfDouble (z : Byte) : (gfDouble z).toNat = z.toNat <<< 1 ^^^ if z[7] then 0x11D else 0 := by
  have hz : z.toNat <<< 1 < 2 ^ 9 := by rw [Nat.shiftLeft_eq]; omega
  have h := congrArg BitVec.toNat (setWidth_gfDouble z)
  rwa [BitVec.toNat_setWidth_of_le (by decide), BitVec.toNat_xor, BitVec.toNat_shiftLeft,
    BitVec.toNat_setWidth_of_le (by decide), Nat.mod_eq_of_lt hz, apply_ite BitVec.toNat] at h

/-- Both Horner forms side by side: each doubling of the loop that reduces puts a 1 into the quotient, the others a 0. -/
theorem exists_quotient (x : Byte) {k : Nat} (hk : k ≤ 8) {y : Byte} (hy : y.toNat < 2 ^ k) :
    ∃ q < 2 ^ k, carrylessMul x.toNat y.toNat = carrylessMul 0x11D q ^^^ (gfMul x y).toNat := by
  induction k generalizing y with
  | zero =>
    obtain rfl : y = 0#8 := BitVec.eq_of_toNat_eq (Nat.lt_one_iff.mp hy)
    exact ⟨0, Nat.one_pos, by rw [gfMul_zero_right]; rfl⟩
  | succ k ih =>
    obtain ⟨q, hq, heq⟩ := ih (y := y >>> 1) (by omega)
      (by rw [BitVec.toNat_ushiftRight, Nat.shiftRight_eq_div_pow]; omega)
    have hbit : Nat.bit (gfMul x (y >>> 1))[7] q < 2 ^ (k + 1) := Nat.bit_lt_two_pow_succ_iff.mpr hq
    refine ⟨_, hbit, ?_⟩
    have hproduct : carrylessMul x.toNat y.toNat =
        carrylessMul x.toNat (y >>> 1).toNat <<< 1 ^^^ if y.toNat.testBit 0 then x.toNat else 0 :=
      carrylessMul_eq_shift y.isLt
    have hquotient : carrylessMul 0x11D (Nat.bit (gfMul x (y >>> 1))[7] q) =
        carrylessMul 0x11D q <<< 1 ^^^ if (gfMul x (y >>> 1))[7] then 0x11D else 0 := by
      rw [carrylessMul_eq_shift (hbit.trans_le (Nat.pow_le_pow_right (by decide) hk)), Nat.bit_shiftRight_one,
        Nat.testBit_bit_zero]
    have hremainder : (gfMul x y).toNat = ((gfMul x (y >>> 1)).toNat <<< 1 ^^^ if (gfMul x (y >>> 1))[7] then 0x11D else 0) ^^^
        if y.toNat.testBit 0 then x.toNat else 0 := by
      rw [gfMul_eq_double_shift x y, BitVec.toNat_xor, toNat_gfDouble]
      exact congrArg _ (apply_ite BitVec.toNat _ _ _)
    rw [hproduct, heq, hquotient, hremainder, Nat.shiftLeft_xor_distrib]
    generalize (if (gfMul x (y >>> 1))[7] then 0x11D else 0) = r
    simp only [Nat.xor_assoc, Nat.xor_left_comm r, Nat.xor_xor_cancel_left]

/-- Settles O48: the loop divides the carry-less product by 0x11D, for a factor of 8 bits. -/
theorem gfMulIsProductModulo11D : Obligations.GfMulIsProductModulo11D := fun x y =>
  exists_quotient x (Nat.le_refl 8) y.isLt

end Sys2Proof.Machine
end

section
/-! SUPPORT. O26, O49: GF_MUL, and the two constructions of the multiplier (R131, R132, R135). -/

namespace Sys2Proof.Machine

/-! ### GF_MUL (R132) -/

/-- Settles O26: the corner cases are the laws of 0 and 1. -/
theorem gfMulReturnsProduct : Obligations.GfMulReturnsProduct := by
  refine ⟨fun w hw => ?_, fun s a c => ?_, fun a => ?_, by decide, by decide, by decide⟩
  · obtain ⟨-, -, -, -, -, -, -, -, hmul, -⟩ := opcodeMapDecidesDecoding w
    exact (hmul _ _).mpr ⟨hw, BitVec.toNat_ofNat _ _, BitVec.toNat_ofNat _ _⟩
  · have hzext : zext32 (gfMul a c) = BitVec.ofNat 32 (gfMul a c).toNat := BitVec.eq_of_toNat_eq (by simp [zext32])
    rw [exec, execGfMul, gfProduct_eq, hzext, complete, completed_eq]
    rfl
  · exact ⟨gfMul_zero_left a, gfMul_zero_right a, gfMul_one_left a, gfMul_one_right a⟩

/-! ### GF_IMPL changes no value (R131, R135) -/

variable (impl impl' : Config.GfImpl)

theorem gfProduct_congr : gfProduct impl = gfProduct impl' := by
  funext x y
  rw [gfProduct_eq, gfProduct_eq]

theorem divisorPass_congr : divisorPass impl = divisorPass impl' := by
  funext n root t
  simp only [divisorPass, gfProduct_congr impl impl']

theorem divisorPasses_congr (n k : Nat) (root : Byte) (t : List Byte) :
    divisorPasses impl n k root t = divisorPasses impl' n k root t := by
  induction k generalizing root t with
  | zero => rfl
  | succ k ih => rw [divisorPasses, divisorPasses, gfProduct_congr impl impl', divisorPass_congr impl impl', ih]

theorem buildDivisor_congr (n : Nat) : buildDivisor impl n = buildDivisor impl' n := divisorPasses_congr ..

theorem feedRegister_congr : feedRegister impl = feedRegister impl' := by
  funext n div rem d
  simp only [feedRegister, gfProduct_congr impl impl']

/-- The same state in a block with the construction `impl` (R8). -/
def State.withGfImpl (s : State) : State := { s with params := { s.params with gfImpl := impl } }

/-- The same outcome of a block with the construction `impl`. -/
def Result.withGfImpl : Result → Result
  | .next s => .next (s.withGfImpl impl)
  | .fault r => .fault r
  | .refused r => .refused r

/-- Every command commutes with a change of the construction: no check reads GF_IMPL, and the three values
computed with products are the same for both. -/
theorem exec_withGfImpl (i : Instr) (s : State) : exec i (s.withGfImpl impl) = Result.withGfImpl impl (exec i s) := by
  cases i with
  | nop | stClr | rsClr => rfl
  | bbClear b => simp only [exec, execBbClear, apply_ite (Result.withGfImpl impl)]; rfl
  | bbAppend b w => simp only [exec, execBbAppend, apply_ite (Result.withGfImpl impl)]; rfl
  | bbAppendBuf b src => simp only [exec, execBbAppendBuf, apply_ite (Result.withGfImpl impl)]; rfl
  | bbClone b src => simp only [exec, execBbClone, apply_ite (Result.withGfImpl impl)]; rfl
  | bbLen b => simp only [exec, execBbLen, apply_ite (Result.withGfImpl impl)]; rfl
  | bbRead b => simp only [exec, execBbRead, apply_ite (Result.withGfImpl impl)]; rfl
  | gfMul a c => simp only [exec, execGfMul, gfProduct_congr _ s.params.gfImpl]; rfl
  | rsDiv n =>
    simp only [exec, execRsDiv, apply_ite (Result.withGfImpl impl), buildDivisor_congr _ s.params.gfImpl]; rfl
  | rsFeed d =>
    simp only [exec, execRsFeed, apply_ite (Result.withGfImpl impl), feedRegister_congr _ s.params.gfImpl]; rfl
  | rsRdrem j => simp only [exec, execRsRdrem, apply_ite (Result.withGfImpl impl)]; rfl
  | rsRddiv j => simp only [exec, execRsRddiv, apply_ite (Result.withGfImpl impl)]; rfl

/-- Settles O49: the table holds the loop's values, and every command commutes with the change of construction. -/
theorem gfImplChangesNoValue : Obligations.GfImplChangesNoValue := by
  refine ⟨congrFun₂ (gfProduct_congr _ _), fun i s t impl h => ?_⟩
  calc exec i (s.withGfImpl impl)
      = Result.withGfImpl impl (exec i s) := exec_withGfImpl impl i s
    _ = .next (t.withGfImpl impl) := by rw [h]; rfl

end Sys2Proof.Machine
end

section
/-! SUPPORT. O27 to O31, O52: what each command of the remainder unit does (R151 to R157). -/

namespace Sys2Proof.Machine

variable {s : State}

/-! ### The register files after a write (R28, R29) -/

theorem getElem?_fileSetPrefix_of_lt {f new : List Byte} {j : Nat} (h : j < new.length) :
    (fileSetPrefix f new)[j]? = new[j]? := by
  rw [fileSetPrefix, List.getElem?_append_left h]

theorem getElem?_fileSetPrefix_of_le {f new : List Byte} {j : Nat} (h : new.length ≤ j) :
    (fileSetPrefix f new)[j]? = f[j]? := by
  rw [fileSetPrefix, List.getElem?_append_right h, List.getElem?_drop, Nat.add_sub_cancel' h]

theorem fileGet_fileSetPrefix {f new : List Byte} {j : Nat} (h : j < new.length) :
    fileGet (fileSetPrefix f new) j = fileGet new j := by
  rw [fileGet, List.getD_eq_getElem?_getD, getElem?_fileSetPrefix_of_lt h, ← List.getD_eq_getElem?_getD, fileGet]

theorem zext32_eq (x : Byte) : zext32 x = BitVec.ofNat 32 x.toNat := BitVec.eq_of_toNat_eq (by simp [zext32])

/-- The state a completing RS_CLR or RS_FEED leaves when it has written `r` to the remainder register. -/
def State.withRemainder (s : State) (r : List Byte) : State := State.completed { s with rem := fileSetPrefix s.rem r }

theorem withRemainder_eq (s : State) (r : List Byte) : s.withRemainder r =
    { s with rem := (s.withRemainder r).rem, status := s.status &&& 0xFFFFFFF0#32 } :=
  completed_eq _

/-! ### RS_DIV (R151, R152) -/

/-- RS_DIV completes for the degrees that the instance has. -/
theorem exec_rsDiv_of_le {n : Nat} (hpos : 1 ≤ n) (hle : n ≤ s.params.nmax) :
    exec (.rsDiv n) s = .next (s.loadDivisor n).completed := by
  obtain ⟨t, ht⟩ := exec_isNext (.rsDiv n) s
  obtain ⟨hbad, -⟩ | ⟨-, rfl⟩ := execRsDiv_cases ht
  · omega
  · exact ht

theorem toNat_deg_loadDivisor {n : Nat} (s : State) (h : n < 256) : (s.loadDivisor n).deg.toNat = n :=
  Nat.mod_eq_of_lt h

/-- The degrees of a legal instance fit the 8 bits of DEG (R8, R27). -/
theorem lt_of_le_nmax {n : Nat} (hlegal : s.params.Legal) (hle : n ≤ s.params.nmax) : n < 256 := by
  obtain ⟨-, -, ⟨-, hmax⟩, -⟩ := hlegal
  omega

theorem take_div_loadDivisor {n : Nat} (s : State) (hpos : 1 ≤ n) : 1 :: (s.loadDivisor n).div.take n = generator n := by
  rw [State.loadDivisor, List.take_left' (length_buildDivisor _ hpos), one_cons_buildDivisor _ hpos]

/-- Settles O27: the state that RS_DIV loads, read field by field. -/
theorem rsDivBuildsDivisor : Obligations.RsDivBuildsDivisor := by
  refine ⟨fun w hw => ?_, fun s n hlegal => ⟨fun hpos hle => ?_, fun hbad => ?_⟩, by decide, by decide⟩
  · obtain ⟨-, -, -, -, -, -, -, -, -, hdiv, -⟩ := opcodeMapDecidesDecoding w
    exact (hdiv _).mpr ⟨hw, rfl⟩
  · refine ⟨_, exec_rsDiv_of_le hpos hle, toNat_deg_loadDivisor s (lt_of_le_nmax hlegal hle), take_div_loadDivisor s hpos,
      List.take_left' List.length_replicate, ?_, ?_, completed_eq _⟩
    · simp [State.loadDivisor, length_buildDivisor _ hpos, hle]
    · simp [State.loadDivisor, hle]
  · obtain ⟨t, ht⟩ := exec_isNext (.rsDiv n) s
    obtain ⟨-, rfl⟩ | ⟨hok, -⟩ := execRsDiv_cases ht
    · rw [ht, raisedWith_eq]
      rfl
    · omega

/-- The register after outer pass `i`, counted from 0 (R152). -/
theorem divisorPasses_eq_passRegister (impl : Config.GfImpl) {n i : Nat} (h : i < n) :
    divisorPasses impl n (i + 1) 0x01 (List.replicate (n - 1) 0x00 ++ [0x01]) = passRegister n (i + 1) := by
  have hstart : List.replicate (n - 1) 0x00 ++ [0x01] = passRegister n 0 := (passRegister_of_lt (Nat.zero_lt_of_lt h)).symm
  have hrun : divisorPasses impl n (i + 1) 0x01 (passRegister n 0) = passRegister n (0 + (i + 1)) :=
    divisorPasses_passRegister impl (i + 1) 0 (by omega)
  rw [hstart, hrun, Nat.zero_add]

/-- Settles O52: each pass multiplies the register by one more factor, and the last one shifts the leading 1 out at the head. -/
theorem divisorPassesBuildProductOfRoots : Obligations.DivisorPassesBuildProductOfRoots := by
  refine ⟨fun impl n i h => ?_, fun impl n h => one_cons_buildDivisor impl h, by decide, by decide +kernel, fun impl => ?_⟩
  · rw [divisorPasses_eq_passRegister impl (by omega), passRegister_of_lt h, Nat.sub_sub, Nat.sub_sub, ← Nat.add_assoc,
      Nat.add_right_comm]
  · calc (List.range 3).map (fun i => divisorPasses impl 3 (i + 1) 0x01 [0x00, 0x00, 0x01])
        = (List.range 3).map (fun i => passRegister 3 (i + 1)) :=
          List.map_congr_left fun i hi => divisorPasses_eq_passRegister impl (List.mem_range.mp hi)
      _ = [[0, 1, 1], [1, 3, 2], [0x07, 0x0E, 0x08]] := by decide

/-! ### RS_CLR (R153) -/

theorem exec_rsClr (s : State) : exec .rsClr s = .next (s.withRemainder (List.replicate s.deg.toNat 0x00)) := by
  obtain ⟨t, ht⟩ := exec_isNext .rsClr s
  rw [ht, execRsClr_cases ht]
  rfl

/-- Settles O28: the write of `DEG` zeros reaches no entry from `DEG` on, and is none when `DEG` is 0. -/
theorem rsClrClearsRemainder : Obligations.RsClrClearsRemainder := by
  refine ⟨by decide, fun s hdeg => ⟨_, exec_rsClr s, ?_, fun j hj => ?_, fun j hj => ?_, withRemainder_eq s _⟩,
    fun s hzero => ?_⟩
  · exact length_fileSetPrefix _ _ (by rwa [List.length_replicate])
  · exact (getElem?_fileSetPrefix_of_lt (by rwa [List.length_replicate])).trans (List.getElem?_replicate_of_lt hj)
  · exact getElem?_fileSetPrefix_of_le (by rwa [List.length_replicate])
  · rw [exec_rsClr, withRemainder_eq, hzero]
    rfl

/-! ### RS_FEED (R154) -/

/-- With a divisor, RS_FEED writes the register one step of the division on (R154). -/
theorem exec_rsFeed_of_ne_zero (h : s.deg ≠ 0) (d : Byte) : exec (.rsFeed d) s =
    .next (s.withRemainder (feedRegister s.params.gfImpl s.deg.toNat s.div s.rem d)) := by
  obtain ⟨t, ht⟩ := exec_isNext (.rsFeed d) s
  obtain ⟨hzero, -⟩ | ⟨-, rfl⟩ := execRsFeed_cases ht
  · exact absurd (BitVec.eq_of_toNat_eq hzero) h
  · exact ht

/-- Settles O29: entry by entry, below `DEG` the fed register, from `DEG` on what stood there. -/
theorem rsFeedStepsDivision : Obligations.RsFeedStepsDivision := by
  refine ⟨fun w hw => ?_, fun s d => ⟨fun hdeg hrem _ => ?_, fun hzero => ?_⟩⟩
  · obtain ⟨-, -, -, -, -, -, -, -, -, -, -, hfeed, -⟩ := opcodeMapDecidesDecoding w
    exact (hfeed _).mpr ⟨hw, BitVec.toNat_ofNat _ _⟩
  · refine ⟨_, exec_rsFeed_of_ne_zero hdeg d, ?_, fun j hj => ?_, fun j hj => ?_, withRemainder_eq s _⟩
    · exact length_fileSetPrefix _ _ (by rwa [length_feedRegister])
    · have hentry := fileGet_feedRegister s.params.gfImpl hj s.div s.rem d
      rw [gfProduct_eq] at hentry
      exact (fileGet_fileSetPrefix (by rwa [length_feedRegister])).trans hentry
    · exact getElem?_fileSetPrefix_of_le (by rwa [length_feedRegister])
  · obtain ⟨t, ht⟩ := exec_isNext (.rsFeed d) s
    obtain ⟨-, rfl⟩ | ⟨hpos, -⟩ := execRsFeed_cases ht
    · rw [ht, raisedWith_eq]
      rfl
    · exact absurd (congrArg BitVec.toNat hzero) (Nat.ne_of_gt hpos)

/-! ### RS_RDREM and RS_RDDIV (R156, R157) -/

/-- A byte read from a register file, as RESULT takes it. -/
theorem zext32_fileGet {f : List Byte} {j : Nat} {x : Byte} (h : f[j]? = some x) :
    zext32 (fileGet f j) = BitVec.ofNat 32 x.toNat := by
  rw [zext32_eq, fileGet, List.getD_eq_getElem?_getD, h, Option.getD_some]

/-- Settles O30: the one check is on the index. -/
theorem rsRdremReturnsRemainderByte : Obligations.RsRdremReturnsRemainderByte := by
  refine ⟨fun w hw => ?_, fun s j => ?_⟩
  · obtain ⟨-, -, -, -, -, -, -, -, -, -, -, -, hrdrem, -⟩ := opcodeMapDecidesDecoding w
    exact (hrdrem _).mpr ⟨hw, rfl⟩
  · obtain ⟨t, ht⟩ := exec_isNext (.rsRdrem j) s
    rw [ht]
    obtain ⟨hpast, rfl⟩ | ⟨hj, rfl⟩ := execRsRdrem_cases ht
    · exact ⟨by omega, fun _ => by rw [raisedWith_eq]; rfl⟩
    · exact ⟨fun _ x hx => by rw [completed_eq, zext32_fileGet hx]; rfl, by omega⟩

/-- Settles O31: the one check is on the index. -/
theorem rsRddivReturnsDivisorCoefficient : Obligations.RsRddivReturnsDivisorCoefficient := by
  refine ⟨fun w hw => ?_, fun s j => ?_⟩
  · obtain ⟨-, -, -, -, -, -, -, -, -, -, -, -, -, hrddiv⟩ := opcodeMapDecidesDecoding w
    exact (hrddiv _).mpr ⟨hw, rfl⟩
  · obtain ⟨t, ht⟩ := exec_isNext (.rsRddiv j) s
    rw [ht]
    obtain ⟨hpast, rfl⟩ | ⟨hj, rfl⟩ := execRsRddiv_cases ht
    · exact ⟨by omega, fun _ => by rw [raisedWith_eq]; rfl⟩
    · exact ⟨fun _ x hx => by rw [completed_eq, zext32_fileGet hx]; rfl, by omega⟩

end Sys2Proof.Machine
end

section
/-! SUPPORT. O53, O54, O55: the remainder register along a message, and the division that it carries out (R155, R159, R160). -/

namespace Sys2Proof.Machine

/-! ### Polynomials as lists of coefficients (R150) -/

@[simp] theorem coeff_nil (k : Nat) : coeff [] k = 0#8 := rfl

@[simp] theorem coeff_append_singleton_zero (p : List Byte) (c : Byte) : coeff (p ++ [c]) 0 = c := by
  simp [coeff]

@[simp] theorem coeff_append_singleton_succ (p : List Byte) (c : Byte) (k : Nat) : coeff (p ++ [c]) (k + 1) = coeff p k := by
  simp [coeff]

/-- `p ++ q` is `p(x)` times a power of `x`, plus `q(x)`. -/
theorem coeff_append (p q : List Byte) (k : Nat) :
    coeff (p ++ q) k = coeff (p ++ List.replicate q.length 0#8) k ^^^ coeff q k := by
  induction q using List.reverseRecOn generalizing k with
  | nil => simp
  | append_singleton q c ih =>
    rw [List.length_append, List.length_singleton, List.replicate_succ', ← List.append_assoc, ← List.append_assoc]
    cases k with
    | zero => simp only [coeff_append_singleton_zero, BitVec.zero_xor]
    | succ k => simp only [coeff_append_singleton_succ, ih]

/-- Entry by entry, the XOR of two registers of one length. -/
theorem fileGet_zipWith_xor {p q : List Byte} (h : p.length = q.length) (j : Nat) :
    fileGet (List.zipWith (· ^^^ ·) p q) j = fileGet p j ^^^ fileGet q j := by
  by_cases hj : j < p.length
  · simp [fileGet, hj, h ▸ hj]
  · simp [fileGet, hj, h ▸ hj]

theorem coeff_zipWith_xor {p q : List Byte} (h : p.length = q.length) (k : Nat) :
    coeff (List.zipWith (· ^^^ ·) p q) k = coeff p k ^^^ coeff q k := by
  have hrev : p.reverse.length = q.reverse.length := by simpa using h
  rw [coeff, List.reverse_zipWith h]
  exact fileGet_zipWith_xor hrev k

theorem coeff_map_gfMul (p : List Byte) (c : Byte) (k : Nat) : coeff (p.map (gfMul · c)) k = gfMul (coeff p k) c := by
  have hmap := List.getD_map (l := p.reverse) (d := 0#8) (n := k) (gfMul · c)
  rwa [gfMul_zero_left, List.map_reverse] at hmap

/-! ### Products of polynomials -/

theorem xorSum_succ (n : Nat) (f : Nat → Byte) : xorSum (n + 1) f = xorSum n f ^^^ f n := by
  rw [xorSum, List.range_succ, List.foldl_append, xorSum, List.foldl_cons, List.foldl_nil]

theorem xorSum_congr {n : Nat} {f f' : Nat → Byte} (h : ∀ i < n, f i = f' i) : xorSum n f = xorSum n f' := by
  induction n with
  | zero => rfl
  | succ n ih => rw [xorSum_succ, xorSum_succ, ih fun i hi => h i (Nat.lt_succ_of_lt hi), h n (Nat.lt_succ_self n)]

theorem xorSum_zero (n : Nat) : xorSum n (fun _ => 0#8) = 0#8 := by
  induction n with
  | zero => rfl
  | succ n ih => rw [xorSum_succ, ih, BitVec.xor_zero]

theorem coeffMul_nil (g : List Byte) (k : Nat) : coeffMul g [] k = 0#8 := by
  simp only [coeffMul, coeff_nil, gfMul_zero_right, xorSum_zero]

theorem coeffMul_append_singleton_zero (g q : List Byte) (c : Byte) : coeffMul g (q ++ [c]) 0 = gfMul (coeff g 0) c := by
  rw [coeffMul, xorSum_succ, Nat.sub_zero, coeff_append_singleton_zero]
  exact BitVec.zero_xor

/-- `g · (x·q + c) = x·(g·q) + c·g`, read at `x^(k+1)`. -/
theorem coeffMul_append_singleton_succ (g q : List Byte) (c : Byte) (k : Nat) :
    coeffMul g (q ++ [c]) (k + 1) = coeffMul g q k ^^^ gfMul (coeff g (k + 1)) c := by
  have hshift : ∀ i < k + 1, gfMul (coeff g i) (coeff (q ++ [c]) (k + 1 - i)) = gfMul (coeff g i) (coeff q (k - i)) := by
    intro i hi
    rw [Nat.succ_sub (Nat.le_of_lt_succ hi), coeff_append_singleton_succ]
  rw [coeffMul, xorSum_succ, xorSum_congr hshift, Nat.sub_self, coeff_append_singleton_zero, coeffMul]

/-! ### One step of the division -/

section Division

variable {n : Nat} {g message r r' : List Byte} {d f : Byte}

/-- The empty message leaves the cleared register. -/
theorem isRemainder_nil (n : Nat) (g : List Byte) : IsRemainder n g [] (List.replicate n 0#8) :=
  ⟨List.length_replicate, [], fun k => by rw [coeffMul_nil, BitVec.zero_xor]; rfl⟩

/-- `M(x)·x^n = q(x)·g(x) + r(x)`, with both sides multiplied by `x` and `f·g(x)` taken into the quotient. -/
theorem coeff_message_shift {q : List Byte}
    (hq : ∀ k, coeff (message ++ List.replicate n 0#8) k = coeffMul g q k ^^^ coeff r k) (f : Byte) (k : Nat) :
    coeff (message ++ List.replicate n 0#8 ++ [0#8]) k =
      coeffMul g (q ++ [f]) k ^^^ (coeff (r ++ [0#8]) k ^^^ gfMul (coeff g k) f) := by
  cases k with
  | zero => simp only [coeff_append_singleton_zero, coeffMul_append_singleton_zero, BitVec.zero_xor, BitVec.xor_self]
  | succ k =>
    simp only [coeff_append_singleton_succ, coeffMul_append_singleton_succ, hq k]
    rw [BitVec.xor_assoc, BitVec.xor_comm (coeff r k), xor_cancel_left]

/-- One more byte `d` of the message: `x·r(x) + d·x^n` is `f·g(x)` plus the next remainder, and `f` is the next coefficient of the
quotient. -/
theorem IsRemainder.append_singleton (h : IsRemainder n g message r) (hg : g.length = n + 1)
    (hstep : d :: r' = List.zipWith (· ^^^ ·) (r ++ [0#8]) (g.map (gfMul · f))) :
    IsRemainder n g (message ++ [d]) r' := by
  obtain ⟨hlen, q, hq⟩ := h
  have hlen' : r'.length = n := by simpa [hlen, hg] using congrArg List.length hstep
  refine ⟨hlen', q ++ [f], fun k => ?_⟩
  have hregister : coeff (r ++ [0#8]) k ^^^ gfMul (coeff g k) f = coeff (d :: List.replicate n 0#8) k ^^^ coeff r' k := by
    rw [← coeff_map_gfMul, ← coeff_zipWith_xor (by simp [hlen, hg]), ← hstep, ← hlen']
    exact coeff_append [d] r' k
  calc coeff (message ++ [d] ++ List.replicate n 0#8) k
      = coeff (message ++ List.replicate n 0#8 ++ [0#8]) k ^^^ coeff (d :: List.replicate n 0#8) k := by
        rw [List.append_assoc, List.singleton_append, coeff_append, List.length_cons, List.length_replicate,
          List.replicate_succ', ← List.append_assoc]
    _ = coeffMul g (q ++ [f]) k ^^^ (coeff r' k ^^^ coeff (d :: List.replicate n 0#8) k) ^^^
          coeff (d :: List.replicate n 0#8) k := by
        rw [coeff_message_shift hq f, hregister, BitVec.xor_comm (coeff r' k)]
    _ = coeffMul g (q ++ [f]) k ^^^ coeff r' k := by rw [← BitVec.xor_assoc, xor_cancel_right]

end Division

/-! ### The register along a message (R154) -/

section Register

variable {impl : Config.GfImpl} {n : Nat} {div : List Byte}

/-- RS_FEED as a step on whole lists: the register moves one place toward the head and takes in a multiple of the divisor. -/
theorem feedRegister_cons {x d : Byte} {r : List Byte} (hr : r.length + 1 = n) (hdiv : n ≤ div.length) :
    feedRegister impl n div (x :: r) d =
      List.zipWith (· ^^^ ·) (r ++ [0#8]) ((div.take n).map (gfMul · (d ^^^ x))) := by
  refine List.ext_getElem (by simp [hr, hdiv]) fun j hj _ => ?_
  have hj : j < n := by simpa using hj
  have hjdiv : j < div.length := hj.trans_le hdiv
  have hcoeff : fileGet div j = div[j] := List.getD_eq_getElem _ _ hjdiv
  have hnext : (if j + 1 < n then fileGet (x :: r) (j + 1) else 0x00) = (r ++ [0#8])[j]'(by simpa [hr] using hj) := by
    by_cases hlast : j + 1 < n
    · have hinside : j < r.length := by omega
      rw [if_pos hlast]
      simp [fileGet, hinside]
    · have hend : r.length = j := by omega
      rw [if_neg hlast]
      simp [← hend]
  simp only [feedRegister, hcoeff, hnext, gfProduct_eq, List.getElem_map, List.getElem_range, List.getElem_zipWith,
    List.getElem_take]
  rfl

/-- The register times `x`, plus `f·g(x)` with the fed-back byte `f`, is the next register with `d` at its head (R150, R154). -/
theorem cons_feedRegister {r : List Byte} (hr : r.length = n) (hpos : 0 < n) (hdiv : n ≤ div.length) (d : Byte) :
    d :: feedRegister impl n div r d =
      List.zipWith (· ^^^ ·) (r ++ [0#8]) ((1#8 :: div.take n).map (gfMul · (d ^^^ fileGet r 0))) := by
  cases r with
  | nil => exact absurd hr hpos.ne
  | cons x r =>
    have hhead : x ^^^ gfMul 1#8 (d ^^^ x) = d := by rw [gfMul_one_left, BitVec.xor_comm d, xor_cancel_left]
    rw [feedRegister_cons hr hdiv, List.map_cons, List.cons_append, List.zipWith_cons_cons]
    exact congrArg (· :: _) hhead.symm

/-- The byte at the head gives factor 0, and the step is a pure shift (R154). -/
theorem feedRegister_head {x : Byte} {r : List Byte} (hr : r.length + 1 = n) (hdiv : n ≤ div.length) :
    feedRegister impl n div (x :: r) x = r ++ [0#8] := by
  rw [feedRegister_cons hr hdiv, BitVec.xor_self]
  refine List.ext_getElem (by simp [hr, hdiv]) fun j _ _ => ?_
  rw [List.getElem_zipWith, List.getElem_map, gfMul_zero_right, BitVec.xor_zero]

theorem feedRegister_xor {r₁ r₂ : List Byte} (h : r₁.length = r₂.length) (d₁ d₂ : Byte) :
    feedRegister impl n div (List.zipWith (· ^^^ ·) r₁ r₂) (d₁ ^^^ d₂) =
      List.zipWith (· ^^^ ·) (feedRegister impl n div r₁ d₁) (feedRegister impl n div r₂ d₂) := by
  have hfactor : d₁ ^^^ d₂ ^^^ (fileGet r₁ 0 ^^^ fileGet r₂ 0) = (d₁ ^^^ fileGet r₁ 0) ^^^ (d₂ ^^^ fileGet r₂ 0) := by
    ac_rfl
  refine List.ext_getElem (by simp) fun j hj _ => ?_
  simp only [feedRegister, fileGet_zipWith_xor h, hfactor, gfProduct_eq, gfMul_xor_right, List.getElem_zipWith,
    List.getElem_map, List.getElem_range]
  by_cases hlast : j + 1 < n
  · simp only [if_pos hlast]
    ac_rfl
  · simp only [if_neg hlast, BitVec.ofNat_eq_ofNat, BitVec.zero_xor]

/-- The register after the bytes of `data` have been fed into `r`, one by one. -/
def feedMessage (impl : Config.GfImpl) (n : Nat) (div r data : List Byte) : List Byte :=
  data.foldl (feedRegister impl n div) r

theorem length_feedMessage {r : List Byte} (hr : r.length = n) (data : List Byte) :
    (feedMessage impl n div r data).length = n := by
  induction data generalizing r with
  | nil => exact hr
  | cons d data ih => exact ih (length_feedRegister ..)

/-- From the cleared register, feeding a message divides it by `g(x)`, byte by byte (R155). -/
theorem isRemainder_feedMessage (hpos : 0 < n) (hdiv : n ≤ div.length) (data : List Byte) :
    IsRemainder n (1#8 :: div.take n) data (feedMessage impl n div (List.replicate n 0#8) data) := by
  induction data using List.reverseRecOn with
  | nil => exact isRemainder_nil n _
  | append_singleton data d ih =>
    have hlen : (feedMessage impl n div (List.replicate n 0#8) data).length = n :=
      length_feedMessage List.length_replicate data
    rw [feedMessage, List.foldl_append]
    exact ih.append_singleton (by simp [hdiv]) (cons_feedRegister hlen hpos hdiv d)

/-- The bytes that stand at the head of the register shift out of it, and zeros come in (R159). -/
theorem feedMessage_head (hdiv : n ≤ div.length) (p : List Byte) {k : Nat} (h : p.length + k = n) :
    feedMessage impl n div (p ++ List.replicate k 0#8) p = List.replicate n 0#8 := by
  induction p generalizing k with
  | nil => rw [← h]; simp [feedMessage]
  | cons x p ih =>
    have hshift : feedRegister impl n div (x :: (p ++ List.replicate k 0#8)) x = p ++ List.replicate (k + 1) 0#8 := by
      rw [feedRegister_head (by simp at h ⊢; omega) hdiv, List.append_assoc, ← List.replicate_succ']
    exact (congrArg (feedMessage impl n div · p) hshift).trans (ih (by simp at h; omega))

/-- Feeding is linear: every step is (R160). -/
theorem feedMessage_xor {r₁ r₂ data₁ data₂ : List Byte} (h₁ : r₁.length = n) (h₂ : r₂.length = n)
    (hdata : data₁.length = data₂.length) :
    feedMessage impl n div (List.zipWith (· ^^^ ·) r₁ r₂) (List.zipWith (· ^^^ ·) data₁ data₂) =
      List.zipWith (· ^^^ ·) (feedMessage impl n div r₁ data₁) (feedMessage impl n div r₂ data₂) := by
  induction data₁ generalizing data₂ r₁ r₂ with
  | nil =>
    obtain rfl : data₂ = [] := List.length_eq_zero_iff.mp hdata.symm
    rfl
  | cons d₁ data₁ ih =>
    cases data₂ with
    | nil => exact absurd hdata (Nat.succ_ne_zero _)
    | cons d₂ data₂ =>
      have hstep := feedRegister_xor (impl := impl) (n := n) (div := div) (h₁.trans h₂.symm) d₁ d₂
      exact (congrArg (feedMessage impl n div · (List.zipWith (· ^^^ ·) data₁ data₂)) hstep).trans
        (ih (length_feedRegister ..) (length_feedRegister ..) (Nat.succ.inj hdata))

/-- Zero bytes leave the cleared register as it is (R154). -/
theorem feedMessage_zero (hdiv : n ≤ div.length) (k : Nat) :
    feedMessage impl n div (List.replicate n 0#8) (List.replicate k 0#8) = List.replicate n 0#8 := by
  have hstep : feedRegister impl n div (List.replicate n 0#8) 0#8 = List.replicate n 0#8 := by
    cases n with
    | zero => rfl
    | succ n => exact (feedRegister_head (by simp) hdiv).trans List.replicate_succ'.symm
  induction k with
  | zero => rfl
  | succ k ih => exact (congrArg (feedMessage impl n div · (List.replicate k 0#8)) hstep).trans ih

end Register

/-! ### The commands along a message -/

variable {s : State} {r : List Byte}

theorem execAll_cons {i : Instr} (h : exec i s = .next t) (is : List Instr) : execAll (i :: is) s = execAll is t := by
  simp only [execAll, h]

theorem take_rem_withRemainder {n : Nat} (s : State) (hr : r.length = n) : (s.withRemainder r).rem.take n = r :=
  hr ▸ take_fileSetPrefix s.rem r

/-- A second write of the register leaves nothing of the first. -/
theorem withRemainder_withRemainder (s : State) {r' : List Byte} (h : r.length = r'.length) :
    (s.withRemainder r).withRemainder r' = s.withRemainder r' := by
  have hrem : fileSetPrefix (fileSetPrefix s.rem r) r' = fileSetPrefix s.rem r' := by
    rw [fileSetPrefix, ← h, drop_fileSetPrefix, h, fileSetPrefix]
  have hstatus : statusSetCode (statusSetCode s.status .ok) .ok = statusSetCode s.status .ok := by
    simp only [statusSetCode_ok, BitVec.and_assoc, BitVec.and_self]
  simp only [State.withRemainder, State.completed, hrem, hstatus]

/-- RS_FEED reads no entry of REM past the register (R154). -/
theorem feedRegister_fileSetPrefix (impl : Config.GfImpl) {n : Nat} (hr : r.length = n) (div f : List Byte) (d : Byte) :
    feedRegister impl n div (fileSetPrefix f r) d = feedRegister impl n div r d := by
  refine List.map_congr_left fun j hj => ?_
  have hj : j < r.length := hr ▸ List.mem_range.mp hj
  have hnext : (if j + 1 < n then fileGet (fileSetPrefix f r) (j + 1) else 0x00) =
      if j + 1 < n then fileGet r (j + 1) else 0x00 :=
    if_ctx_congr Iff.rfl (fun h => fileGet_fileSetPrefix (hr ▸ h)) fun _ => rfl
  rw [hnext, fileGet_fileSetPrefix (Nat.zero_lt_of_lt hj)]

theorem execAll_feeds (hdeg : s.deg ≠ 0) (hr : r.length = s.deg.toNat) (data : List Byte) :
    execAll (feeds data) (s.withRemainder r) =
      .next (s.withRemainder (feedMessage s.params.gfImpl s.deg.toNat s.div r data)) := by
  induction data generalizing r with
  | nil => rfl
  | cons d data ih =>
    have hlen : (feedRegister s.params.gfImpl s.deg.toNat s.div r d).length = s.deg.toNat := length_feedRegister ..
    have hfeed : exec (.rsFeed d) (s.withRemainder r) =
        .next (s.withRemainder (feedRegister s.params.gfImpl s.deg.toNat s.div r d)) :=
      calc exec (.rsFeed d) (s.withRemainder r)
          = .next ((s.withRemainder r).withRemainder
              (feedRegister s.params.gfImpl s.deg.toNat s.div (fileSetPrefix s.rem r) d)) :=
            exec_rsFeed_of_ne_zero (s := s.withRemainder r) hdeg d
        _ = _ := by rw [feedRegister_fileSetPrefix _ hr, withRemainder_withRemainder s (hr.trans hlen.symm)]
    exact (execAll_cons hfeed _).trans (ih hlen)

/-- The register that the bytes of `data` leave, fed from a cleared one. -/
def State.remainder (s : State) (data : List Byte) : List Byte :=
  feedMessage s.params.gfImpl s.deg.toNat s.div (List.replicate s.deg.toNat 0#8) data

theorem length_remainder (s : State) (data : List Byte) : (s.remainder data).length = s.deg.toNat :=
  length_feedMessage List.length_replicate data

theorem take_rem_withRemainder_remainder (s : State) (data : List Byte) :
    (s.withRemainder (s.remainder data)).rem.take s.deg.toNat = s.remainder data :=
  take_rem_withRemainder s (length_remainder s data)

theorem execAll_rsClr_feeds (hdeg : s.deg ≠ 0) (data : List Byte) :
    execAll (.rsClr :: feeds data) s = .next (s.withRemainder (s.remainder data)) :=
  (execAll_cons (exec_rsClr s) _).trans (execAll_feeds hdeg List.length_replicate data)

theorem toNat_pos_of_ne_zero (hdeg : s.deg ≠ 0) : 0 < s.deg.toNat :=
  Nat.pos_of_ne_zero fun h => hdeg (BitVec.eq_of_toNat_eq h)

theorem isRemainder_remainder (hdeg : s.deg ≠ 0) (hdiv : s.deg.toNat ≤ s.div.length) (data : List Byte) :
    IsRemainder s.deg.toNat (1 :: s.div.take s.deg.toNat) data
      ((s.withRemainder (s.remainder data)).rem.take s.deg.toNat) := by
  rw [take_rem_withRemainder_remainder]
  exact isRemainder_feedMessage (toNat_pos_of_ne_zero hdeg) hdiv data

/-- The parity bytes shift out of the register in which they stand (R159). -/
theorem feedMessage_remainder (hdiv : s.deg.toNat ≤ s.div.length) (data : List Byte) :
    feedMessage s.params.gfImpl s.deg.toNat s.div (s.remainder data) (s.remainder data) = List.replicate s.deg.toNat 0#8 := by
  simpa using feedMessage_head hdiv (s.remainder data) (k := 0) (length_remainder s data)

theorem remainder_append (s : State) (data more : List Byte) :
    s.remainder (data ++ more) = feedMessage s.params.gfImpl s.deg.toNat s.div (s.remainder data) more :=
  List.foldl_append

theorem remainder_xor (s : State) {data₁ data₂ : List Byte} (h : data₁.length = data₂.length) :
    s.remainder (List.zipWith (· ^^^ ·) data₁ data₂) =
      List.zipWith (· ^^^ ·) (s.remainder data₁) (s.remainder data₂) := by
  have hzero : List.zipWith (· ^^^ ·) (List.replicate s.deg.toNat 0#8) (List.replicate s.deg.toNat 0#8) =
      List.replicate s.deg.toNat 0#8 := by simp
  exact (congrArg (feedMessage _ _ _ · _) hzero.symm).trans (feedMessage_xor List.length_replicate List.length_replicate h)

/-- RS_DIV leaves the register cleared (R151). -/
theorem completed_loadDivisor_eq (s : State) (n : Nat) :
    (s.loadDivisor n).completed = (s.loadDivisor n).withRemainder (List.replicate n 0#8) := by
  have hrem : fileSetPrefix (s.loadDivisor n).rem (List.replicate n 0#8) = (s.loadDivisor n).rem := by
    simp [fileSetPrefix, State.loadDivisor]
  rw [State.withRemainder, hrem]

theorem deg_loadDivisor_ne_zero {n : Nat} (s : State) (hpos : 1 ≤ n) (hlt : n < 256) : (s.loadDivisor n).deg ≠ 0 := by
  intro hzero
  have hn := toNat_deg_loadDivisor s hlt
  rw [hzero] at hn
  exact absurd hn.symm (Nat.ne_of_gt hpos)

theorem execAll_rsDiv_feeds {n : Nat} (hpos : 1 ≤ n) (hle : n ≤ s.params.nmax) (hlt : n < 256) (data : List Byte) :
    execAll (.rsDiv n :: feeds data) s = .next ((s.loadDivisor n).withRemainder ((s.loadDivisor n).remainder data)) := by
  have hn := toNat_deg_loadDivisor s hlt
  rw [execAll_cons (exec_rsDiv_of_le hpos hle), completed_loadDivisor_eq,
    execAll_feeds (deg_loadDivisor_ne_zero s hpos hlt) (by rw [hn, List.length_replicate]), State.remainder, hn]

/-- Settles O53: both commands clear the register, and the division then goes on byte by byte. -/
theorem remainderIsMessageModDivisor : Obligations.RemainderIsMessageModDivisor := by
  refine ⟨fun s n data hlegal hpos hle => ?_, fun s data hdeg hdiv _ =>
    ⟨_, execAll_rsClr_feeds hdeg data, rfl, rfl, isRemainder_remainder hdeg hdiv data⟩⟩
  have hlt := lt_of_le_nmax hlegal hle
  have hn := toNat_deg_loadDivisor s hlt
  have hdiv : (s.loadDivisor n).deg.toNat ≤ (s.loadDivisor n).div.length := by
    rw [hn, State.loadDivisor, List.length_append, length_buildDivisor _ hpos]
    exact Nat.le_add_right _ _
  have hrem := isRemainder_remainder (deg_loadDivisor_ne_zero s hpos hlt) hdiv data
  rw [hn, take_div_loadDivisor s hpos] at hrem
  exact ⟨_, execAll_rsDiv_feeds hpos hle hlt data, hn, hrem⟩

/-- Settles O54: the parity bytes stand in the register when they come in, also after the message has been fed again. -/
theorem messageWithParityDividesEvenly : Obligations.MessageWithParityDividesEvenly := by
  intro s data hdeg hdiv _
  have hshift := feedMessage_remainder hdiv data
  have hagain : s.remainder (data ++ s.remainder data) = List.replicate s.deg.toNat 0#8 := (remainder_append ..).trans hshift
  have hparity := take_rem_withRemainder_remainder s data
  refine ⟨_, _, _, execAll_rsClr_feeds hdeg data,
    (congrArg (fun p => execAll (feeds p) _) hparity).trans (execAll_feeds hdeg (length_remainder s data) _), ?_,
    (congrArg (fun p => execAll (.rsClr :: feeds (data ++ p)) _) hparity).trans
      (execAll_rsClr_feeds (s := s.withRemainder (s.remainder data)) hdeg _), ?_⟩
  · rw [hshift]
    exact take_rem_withRemainder s List.length_replicate
  · exact (take_rem_withRemainder_remainder (s.withRemainder (s.remainder data)) _).trans hagain

/-- Settles O55: feeding is linear, and zero bytes change nothing in a cleared register. -/
theorem remainderIsLinear : Obligations.RemainderIsLinear := by
  intro s d1 d2 hdeg hdiv _ hlen
  refine ⟨_, _, _, _, execAll_rsClr_feeds hdeg d1, execAll_rsClr_feeds hdeg d2, execAll_rsClr_feeds hdeg _, ?_,
    execAll_rsClr_feeds hdeg _, ?_⟩
  · rw [take_rem_withRemainder_remainder, take_rem_withRemainder_remainder, take_rem_withRemainder_remainder,
      remainder_xor s hlen]
  · rw [take_rem_withRemainder_remainder]
    exact feedMessage_zero hdiv _

end Sys2Proof.Machine
end

section
/-! SUPPORT. O18, O19, O32, O40: NOP and ST_CLR (R181, R182), the two ways a command ends (R180), and the five commands that write
RESULT (R184). -/

namespace Sys2Proof.Machine

variable {s t : State} {i : Instr} {b : Nat}

/-! ### NOP (R181) -/

theorem exec_nop (s : State) : exec .nop s = .next { s with status := s.status &&& 0xFFFFFFF0#32 } :=
  congrArg _ (completed_eq s)

/-- Settles O18: NOP is a completion with nothing done before it. -/
theorem nopClearsCodeOnly : Obligations.NopClearsCodeOnly := by
  refine ⟨rfl, exec_nop, fun s t hs h => ?_⟩
  rw [exec_nop, hs] at h
  cases h
  rfl

/-! ### ST_CLR (R182) -/

/-- Clearing ERR and then CODE clears the five low bits of STATUS. -/
theorem statusSetCode_ok_clearErr (st : Word) : statusSetCode (statusSetErr st false) .ok = st &&& 0xFFFFFFE0#32 := by
  rw [statusSetCode_ok, statusSetErr, if_neg Bool.false_ne_true, BitVec.and_assoc]
  rfl

theorem exec_stClr (s : State) : exec .stClr s = .next { s with status := s.status &&& 0xFFFFFFE0#32 } := by
  rw [← statusSetCode_ok_clearErr]
  rfl

/-- A raise sets ERR, and of the completing commands only ST_CLR clears it. -/
theorem eq_stClr_of_err_cleared (h : exec i s = .next t) (hs : statusErr s.status = true) (ht : statusErr t.status = false) :
    i = .stClr := by
  obtain ⟨c, -, rfl⟩ | ⟨u, he, rfl⟩ := exec_cases h
  · simp at ht
  · obtain ⟨hi, -⟩ | herr := he.err_eq
    · exact hi
    · simp [herr, hs] at ht

/-- Settles O19: the command clears the five low bits of STATUS, and reset all of them. -/
theorem stClrClearsStatus : Obligations.StClrClearsStatus := by
  refine ⟨rfl, exec_stClr, fun i s t h hs ht => eq_stClr_of_err_cleared h hs ht, fun s t hreset h => ?_⟩
  obtain ⟨rest, hp⟩ := nextIsReset_iff.mp hreset
  rw [step_of_reset hp] at h
  cases h
  rw [applyReset_status, statusErr_zero]

/-! ### How a command word ends (R180, R201) -/

/-- The code a raise leaves is one of the five codes 1 to 5. -/
theorem statusCode_raisedWith_bounds (s : State) {c : StatusCode} (hc : c ≠ .ok) :
    1 ≤ (statusCode (s.raisedWith c).status).toNat ∧ (statusCode (s.raisedWith c).status).toNat ≤ 5 := by
  rw [raisedWith_status, statusCode_setErr, statusCode_setCode]
  refine ⟨Nat.one_le_iff_ne_zero.mpr fun h => hc ?_, statusCodeBits_le c⟩
  exact (statusCodeBits_eq_zero c).mp (BitVec.eq_of_toNat_eq h)

/-- Settles O32: no word stops the block, and a word that does not complete raises. -/
theorem commandCompletesOrRaises : Obligations.CommandCompletesOrRaises := by
  intro w s
  obtain ⟨t, ht⟩ := executeWord_isNext w s
  refine ⟨t, ht, ?_⟩
  obtain ⟨c, hc, rfl⟩ | ⟨i, u, -, -, rfl⟩ := executeWord_cases ht
  · obtain ⟨hpos, hle⟩ := statusCode_raisedWith_bounds s hc
    exact .inr ⟨hpos, hle, by rw [raisedWith_status, statusErr_setErr]⟩
  · exact .inl (statusCode_completed u)

/-! ### Who writes RESULT (R184) -/

/-- A command that raises writes STATUS alone (R203). -/
theorem completed_of_result_ne (h : exec i s = .next t) (hne : t.result ≠ s.result) : statusCode t.status = 0 := by
  obtain ⟨c, -, rfl⟩ | ⟨u, -, rfl⟩ := exec_cases h
  · exact absurd rfl hne
  · exact statusCode_completed u

/-- The commands other than the five keep RESULT, in each of their outcomes. -/
theorem writer_of_result_ne (h : exec i s = .next t) (hne : t.result ≠ s.result) :
    (∃ b, i = .bbLen b) ∨ (∃ b, i = .bbRead b) ∨ (∃ a c, i = .gfMul a c) ∨ (∃ j, i = .rsRdrem j) ∨ ∃ j, i = .rsRddiv j := by
  cases i with
  | bbLen b => exact .inl ⟨b, rfl⟩
  | bbRead b => exact .inr (.inl ⟨b, rfl⟩)
  | gfMul a c => exact .inr (.inr (.inl ⟨a, c, rfl⟩))
  | rsRdrem j => exact .inr (.inr (.inr (.inl ⟨j, rfl⟩)))
  | rsRddiv j => exact .inr (.inr (.inr (.inr ⟨j, rfl⟩)))
  | nop => exact absurd (congrArg State.result (execNop_cases h)) hne
  | stClr => exact absurd (congrArg State.result (execStClr_cases h)) hne
  | rsClr => exact absurd (congrArg State.result (execRsClr_cases h)) hne
  | bbClear b => obtain ⟨-, rfl⟩ | ⟨-, rfl⟩ := execBbClear_cases h <;> exact absurd rfl hne
  | bbAppend b w => obtain ⟨-, rfl⟩ | ⟨-, -, rfl⟩ | ⟨-, -, rfl⟩ := execBbAppend_cases h <;> exact absurd rfl hne
  | bbAppendBuf b src => obtain ⟨-, rfl⟩ | ⟨-, -, rfl⟩ | ⟨-, -, rfl⟩ := execBbAppendBuf_cases h <;> exact absurd rfl hne
  | bbClone b src => obtain ⟨-, rfl⟩ | ⟨-, rfl⟩ := execBbClone_cases h <;> exact absurd rfl hne
  | rsDiv n => obtain ⟨-, rfl⟩ | ⟨-, rfl⟩ := execRsDiv_cases h <;> exact absurd rfl hne
  | rsFeed d => obtain ⟨-, rfl⟩ | ⟨-, rfl⟩ := execRsFeed_cases h <;> exact absurd rfl hne

/-! ### What RESULT holds (R184) -/

/-- BB_READ returns a bit (R106). -/
theorem result_lt_of_completed_bbRead (h : exec (.bbRead b) s = .next t) (hc : statusCode t.status = 0) :
    t.result.toNat < 2 := by
  obtain ⟨-, rfl⟩ | ⟨-, -, rfl⟩ | ⟨-, -, rfl⟩ := execBbRead_cases h
  · exact absurd hc (statusCode_raisedWith_ne_zero s (by decide))
  · exact absurd hc (statusCode_raisedWith_ne_zero s (by decide))
  · rw [completed_result, setResult_result]
    split <;> decide

/-- GF_MUL, RS_RDREM and RS_RDDIV return a byte, zero-extended (R132, R156, R157). -/
theorem result_eq_zext32_of_completed (h : exec i s = .next t) (hc : statusCode t.status = 0)
    (hi : (∃ a c, i = .gfMul a c) ∨ (∃ j, i = .rsRdrem j) ∨ ∃ j, i = .rsRddiv j) : ∃ x, t.result = zext32 x := by
  obtain ⟨a, c, rfl⟩ | ⟨j, rfl⟩ | ⟨j, rfl⟩ := hi
  · exact ⟨_, congrArg State.result (execGfMul_cases h)⟩
  · obtain ⟨-, rfl⟩ | ⟨-, rfl⟩ := execRsRdrem_cases h
    · exact absurd hc (statusCode_raisedWith_ne_zero s (by decide))
    · exact ⟨_, rfl⟩
  · obtain ⟨-, rfl⟩ | ⟨-, rfl⟩ := execRsRddiv_cases h
    · exact absurd hc (statusCode_raisedWith_ne_zero s (by decide))
    · exact ⟨_, rfl⟩

/-- In a well-formed state a length fits a word (R24). -/
theorem length_buf_lt (h : s.Wf) (b : Nat) : (s.buf b).length < 2 ^ 32 := by
  have hlen : (s.buf b).length ≤ s.params.bbCap := buf_length_le h b
  obtain ⟨⟨-, ⟨-, hcap⟩, -⟩, -⟩ := h
  omega

/-- BB_LEN returns the length itself (R105). -/
theorem result_of_completed_bbLen (hs : s.Wf) (h : exec (.bbLen b) s = .next t) (hc : statusCode t.status = 0) :
    t.result.toNat = (s.buf b).length := by
  obtain ⟨-, rfl⟩ | ⟨-, rfl⟩ := execBbLen_cases h
  · exact absurd hc (statusCode_raisedWith_ne_zero s (by decide))
  · exact Nat.mod_eq_of_lt (length_buf_lt hs b)

/-- Settles O40: which commands write RESULT, and what each of the five returns. -/
theorem fiveCommandsWriteResult : Obligations.FiveCommandsWriteResult := by
  intro i s t h
  refine ⟨fun hne => ⟨completed_of_result_ne h hne, writer_of_result_ne h hne⟩, fun hc => ⟨?_, fun hi => ?_, ?_⟩⟩
  · rintro ⟨b, rfl⟩
    exact result_lt_of_completed_bbRead h hc
  · obtain ⟨x, hx⟩ := result_eq_zext32_of_completed h hc hi
    rw [hx]
    exact Nat.lt_succ_of_le (zext32_le x)
  · rintro b rfl hs
    exact result_of_completed_bbLen hs h hc

end Sys2Proof.Machine
end

section
/-! SUPPORT. O7, O33, O34, O35, O37, O38: how a raise behaves (R201 to R206). Each command is a row of checks in the order of
R205, one for each code that R202 lists; the first failing one gives the code, and none of them reads STATUS. -/

namespace Sys2Proof.Machine

open Sys2Proof.Laws (opOf)

variable {s t : State} {i j : Instr} {c d : StatusCode}

/-! ### Idling (R216) -/

/-- Settles O7: with an empty list a step takes no event. -/
theorem idleStepKeepsState : Obligations.IdleStepKeepsState := by
  intro s hp
  rw [step, hp]

/-! ### What a raise leaves (R203, R206) -/

theorem statusCode_raisedWith (s : State) (c : StatusCode) : statusCode (s.raisedWith c).status = statusCodeBits c := by
  rw [raisedWith_status, statusCode_setErr, statusCode_setCode]

theorem statusErr_raisedWith (s : State) (c : StatusCode) : statusErr (s.raisedWith c).status = true := by
  rw [raisedWith_status, statusErr_setErr]

/-- A second raise overwrites CODE and leaves the rest, so the earlier code is lost (R206). -/
theorem raisedWith_raisedWith (s : State) (c d : StatusCode) : (s.raisedWith c).raisedWith d = s.raisedWith d := by
  have hlow : (0x10#32 ||| (statusCodeBits c).setWidth 32) &&& 0xFFFFFFE0#32 = 0#32 := by cases c <;> decide
  simp only [raisedWith_eq, BitVec.and_or_distrib_right, BitVec.and_assoc, BitVec.and_self, hlow, BitVec.or_zero]

/-- Settles O33: a word that does not complete raises, and a raise writes STATUS and the model's mark. -/
theorem raiseChangesOnlyStatus : Obligations.RaiseChangesOnlyStatus := by
  intro w s t h hne
  obtain ⟨c, -, rfl⟩ | ⟨i, u, -, -, rfl⟩ := executeWord_cases h
  · rw [statusCode_raisedWith, BitVec.or_assoc]
    exact raisedWith_eq s c
  · exact absurd (statusCode_completed u) hne

/-! ### What a completion leaves (R204) -/

/-- The STATUS a completing command leaves: CODE is 0, and ERR is cleared by ST_CLR alone (R182, R204). -/
theorem status_of_completed (h : exec i s = .next t) (hc : statusCode t.status = 0) :
    t.status = s.status &&& (if i = .stClr then 0xFFFFFFE0#32 else 0xFFFFFFF0#32) := by
  by_cases hi : i = .stClr
  · subst hi
    rw [exec_stClr] at h
    cases h
    rfl
  · rw [if_neg hi]
    obtain ⟨c, hne, rfl⟩ | ⟨u, he, rfl⟩ := exec_cases h
    · exact absurd hc (statusCode_raisedWith_ne_zero s hne)
    · have hstatus : u.status = s.status := he.status_eq.resolve_left fun hclr => hi hclr.1
      rw [completed_status, hstatus, statusSetCode_ok, BitVec.ofNat_eq_ofNat]

/-- Settles O35: the mask of a completion that is not ST_CLR's keeps bit 4. -/
theorem completionKeepsErr : Obligations.CompletionKeepsErr := by
  intro i s t h hc
  have hstatus := status_of_completed h hc
  refine ⟨or_iff_not_imp_right.mpr fun hi => ?_, hstatus⟩
  rw [hstatus, if_neg hi, statusErr, statusErr, BitVec.getLsbD_and]
  exact Bool.and_true _

/-! ### The checks of a command (R202, R205) -/

/-- The checks of a command in the order of R205, each with the code it gives: `true` says that the check fails. The checks that
give INVALID_ARGUMENT stand together, as they give one code and come first. -/
def checks (i : Instr) (s : State) : List (StatusCode × Bool) :=
  match i with
  | .nop => []
  | .stClr => []
  | .bbClear b => [(.invalidArgument, s.params.nb ≤ b)]
  | .bbAppend b w =>
    [(.invalidArgument, s.params.nb ≤ b ∨ 31 < w ∨ 2 ^ w ≤ s.arg.toNat),
     (.capacityExceeded, s.params.bbCap < (s.buf b).length + w)]
  | .bbAppendBuf b src =>
    [(.invalidArgument, s.params.nb ≤ b ∨ s.params.nb ≤ src ∨ src = b),
     (.capacityExceeded, s.params.bbCap < (s.buf b).length + (s.buf src).length)]
  | .bbClone b src => [(.invalidArgument, s.params.nb ≤ b ∨ s.params.nb ≤ src)]
  | .bbLen b => [(.invalidArgument, s.params.nb ≤ b)]
  | .bbRead b => [(.invalidArgument, s.params.nb ≤ b), (.indexOutOfRange, (s.buf b).length ≤ s.arg.toNat)]
  | .gfMul _ _ => []
  | .rsDiv n => [(.invalidArgument, n = 0 ∨ s.params.nmax < n)]
  | .rsClr => []
  | .rsFeed _ => [(.notReady, s.deg.toNat = 0)]
  | .rsRdrem j => [(.indexOutOfRange, s.deg.toNat ≤ j)]
  | .rsRddiv j => [(.indexOutOfRange, s.deg.toNat ≤ j)]

/-- The code of the first failing check of a list. -/
def firstFailing (l : List (StatusCode × Bool)) : Option StatusCode := (l.find? Prod.snd).map Prod.fst

/-- The code of the command's first failing check, if one fails. -/
def firstFailure (i : Instr) (s : State) : Option StatusCode := firstFailing (checks i s)

@[simp] theorem firstFailing_nil : firstFailing [] = none := rfl

variable {fails : Bool} {l : List (StatusCode × Bool)}

@[simp] theorem firstFailing_cons_eq_none : firstFailing ((c, fails) :: l) = none ↔ fails = false ∧ firstFailing l = none := by
  cases fails <;> simp [firstFailing]

@[simp] theorem firstFailing_cons_eq_some :
    firstFailing ((c, fails) :: l) = some d ↔ fails = true ∧ c = d ∨ fails = false ∧ firstFailing l = some d := by
  cases fails <;> simp [firstFailing]

/-- The codes of the checks are those R202 lists. -/
theorem map_fst_checks (i : Instr) (s : State) : (checks i s).map Prod.fst = raisableCodes i := by
  cases i <;> rfl

/-- No check reads what a raise writes. -/
theorem checks_raisedWith (i : Instr) (s : State) (c : StatusCode) : checks i (s.raisedWith c) = checks i s := by
  cases i <;> rfl

theorem mem_raisableCodes_of_firstFailure (h : firstFailure i s = some c) : c ∈ raisableCodes i := by
  obtain ⟨x, hx, rfl⟩ := Option.map_eq_some_iff.mp h
  rw [← map_fst_checks i s]
  exact List.mem_map_of_mem (List.mem_of_find?_eq_some hx)

/-- A command raises the code of its first failing check, and it completes when no check fails. -/
theorem raised_or_completed (h : exec i s = .next t) :
    (∃ c, firstFailure i s = some c ∧ t = s.raisedWith c) ∨ firstFailure i s = none ∧ ∃ u : State, t = u.completed := by
  cases i with
  | nop => exact .inr ⟨rfl, _, execNop_cases h⟩
  | stClr => exact .inr ⟨rfl, _, execStClr_cases h⟩
  | gfMul a c => exact .inr ⟨rfl, _, execGfMul_cases h⟩
  | rsClr => exact .inr ⟨rfl, _, execRsClr_cases h⟩
  | bbClear b =>
    obtain ⟨hbad, ht⟩ | ⟨hok, ht⟩ := execBbClear_cases h
    · exact .inl ⟨_, by simp [firstFailure, checks, hbad], ht⟩
    · exact .inr ⟨by simp [firstFailure, checks, hok], _, ht⟩
  | bbAppend b w =>
    have hcases := execBbAppend_cases h
    rw [ne_eq, ushiftRight_eq_zero_iff, not_lt] at hcases
    obtain ⟨hbad, ht⟩ | ⟨hok, hfull, ht⟩ | ⟨hok, hroom, ht⟩ := hcases
    · exact .inl ⟨_, by simp [firstFailure, checks, hbad], ht⟩
    · exact .inl ⟨_, by simp [firstFailure, checks, hok, hfull], ht⟩
    · exact .inr ⟨by simp [firstFailure, checks, hok, hroom], _, ht⟩
  | bbAppendBuf b src =>
    obtain ⟨hbad, ht⟩ | ⟨hok, hfull, ht⟩ | ⟨hok, hroom, ht⟩ := execBbAppendBuf_cases h
    · exact .inl ⟨_, by simp [firstFailure, checks, hbad], ht⟩
    · exact .inl ⟨_, by simp [firstFailure, checks, hok, hfull], ht⟩
    · exact .inr ⟨by simp [firstFailure, checks, hok, hroom], _, ht⟩
  | bbClone b src =>
    obtain ⟨hbad, ht⟩ | ⟨hok, ht⟩ := execBbClone_cases h
    · exact .inl ⟨_, by simp [firstFailure, checks, hbad], ht⟩
    · exact .inr ⟨by simp [firstFailure, checks, hok], _, ht⟩
  | bbLen b =>
    obtain ⟨hbad, ht⟩ | ⟨hok, ht⟩ := execBbLen_cases h
    · exact .inl ⟨_, by simp [firstFailure, checks, hbad], ht⟩
    · exact .inr ⟨by simp [firstFailure, checks, hok], _, ht⟩
  | bbRead b =>
    obtain ⟨hbad, ht⟩ | ⟨hok, hpast, ht⟩ | ⟨hok, hthere, ht⟩ := execBbRead_cases h
    · exact .inl ⟨_, by simp [firstFailure, checks, hbad], ht⟩
    · exact .inl ⟨_, by simp [firstFailure, checks, hok, hpast], ht⟩
    · exact .inr ⟨by simp [firstFailure, checks, hok, hthere], _, ht⟩
  | rsDiv n =>
    obtain ⟨hbad, ht⟩ | ⟨⟨hpos, hle⟩, ht⟩ := execRsDiv_cases h
    · exact .inl ⟨_, by simp [firstFailure, checks, hbad], ht⟩
    · exact .inr ⟨by simp [firstFailure, checks, Nat.ne_of_gt hpos, hle], _, ht⟩
  | rsFeed d =>
    obtain ⟨hbad, ht⟩ | ⟨hok, ht⟩ := execRsFeed_cases h
    · exact .inl ⟨_, by simp [firstFailure, checks, hbad], ht⟩
    · exact .inr ⟨by simp [firstFailure, checks, Nat.ne_of_gt hok], _, ht⟩
  | rsRdrem j =>
    obtain ⟨hbad, ht⟩ | ⟨hok, ht⟩ := execRsRdrem_cases h
    · exact .inl ⟨_, by simp [firstFailure, checks, hbad], ht⟩
    · exact .inr ⟨by simp [firstFailure, checks, hok], _, ht⟩
  | rsRddiv j =>
    obtain ⟨hbad, ht⟩ | ⟨hok, ht⟩ := execRsRddiv_cases h
    · exact .inl ⟨_, by simp [firstFailure, checks, hbad], ht⟩
    · exact .inr ⟨by simp [firstFailure, checks, hok], _, ht⟩

theorem exec_of_firstFailure (h : firstFailure i s = some c) : exec i s = .next (s.raisedWith c) := by
  obtain ⟨t, ht⟩ := exec_isNext i s
  obtain ⟨d, hd, rfl⟩ | ⟨hnone, -⟩ := raised_or_completed ht
  · rw [ht, Option.some.inj (hd.symm.trans h)]
  · simp [hnone] at h

/-- The code left is that of the first failing check, and of no other (R205). -/
theorem statusCode_eq_iff_firstFailure (h : exec i s = .next t) (hc : c ≠ .ok) :
    statusCode t.status = statusCodeBits c ↔ firstFailure i s = some c := by
  obtain ⟨d, hd, rfl⟩ | ⟨hnone, u, rfl⟩ := raised_or_completed h
  · rw [statusCode_raisedWith, hd, Option.some_inj]
    exact ⟨statusCodeBits_injective, congrArg statusCodeBits⟩
  · rw [statusCode_completed, hnone]
    exact iff_of_false (fun h0 => hc ((statusCodeBits_eq_zero c).mp h0.symm)) (by simp)

/-! ### Which codes a command raises (R202) -/

/-- The OPC of a command's word is that of its row (R76). -/
theorem fieldOpc_encode_congr (h : opOf j = opOf i) : fieldOpc (encode j) = fieldOpc (encode i) := by
  obtain ⟨r, hr, hop, ha⟩ := encode_accepted i
  obtain ⟨r', hr', hop', ha'⟩ := encode_accepted j
  have hrow : r' = r := row_of_op r' hr' r hr (by rw [hop', hop, h])
  rw [← fieldOpc_of_accepts hr ha, ← fieldOpc_of_accepts hr' ha', hrow]

/-- A state in which every listed code can be raised: two buffers, both full at one bit; ARG = 1, which fits in one bit and is
past every buffer's end; and DEG = 0. -/
def fullState : State :=
  { State.resetOf { nb := 2, bbCap := 1, nmax := 1, gfImpl := .bitserial, base := 0 } with
    bufs := [[true], [true]]
    arg := 1 }

theorem fullState_wf : fullState.Wf := by decide

/-- Each listed code is that of the first failing check, in `fullState`, for some operands of the command. -/
theorem exists_firstFailure_fullState (i : Instr) :
    ∀ c ∈ raisableCodes i, ∃ j, opOf j = opOf i ∧ firstFailure j fullState = some c := by
  cases i with
  | nop | stClr | gfMul a c | rsClr => exact List.forall_mem_nil _
  | bbClear b => exact List.forall_mem_singleton.mpr ⟨.bbClear 2, rfl, rfl⟩
  | bbLen b => exact List.forall_mem_singleton.mpr ⟨.bbLen 2, rfl, rfl⟩
  | bbClone b src => exact List.forall_mem_singleton.mpr ⟨.bbClone 2 0, rfl, rfl⟩
  | bbAppend b w =>
    exact List.forall_mem_cons.mpr ⟨⟨.bbAppend 2 1, rfl, rfl⟩, List.forall_mem_singleton.mpr ⟨.bbAppend 0 1, rfl, rfl⟩⟩
  | bbAppendBuf b src =>
    exact List.forall_mem_cons.mpr ⟨⟨.bbAppendBuf 0 0, rfl, rfl⟩, List.forall_mem_singleton.mpr ⟨.bbAppendBuf 0 1, rfl, rfl⟩⟩
  | bbRead b => exact List.forall_mem_cons.mpr ⟨⟨.bbRead 2, rfl, rfl⟩, List.forall_mem_singleton.mpr ⟨.bbRead 0, rfl, rfl⟩⟩
  | rsDiv n => exact List.forall_mem_singleton.mpr ⟨.rsDiv 0, rfl, rfl⟩
  | rsFeed d => exact List.forall_mem_singleton.mpr ⟨.rsFeed 0, rfl, rfl⟩
  | rsRdrem j => exact List.forall_mem_singleton.mpr ⟨.rsRdrem 0, rfl, rfl⟩
  | rsRddiv j => exact List.forall_mem_singleton.mpr ⟨.rsRddiv 0, rfl, rfl⟩

/-- Settles O34: the codes of the checks are those listed, and `fullState` raises each of them. -/
theorem raisedCodesAreThoseListed : Obligations.RaisedCodesAreThoseListed := by
  refine ⟨fun i s t h => ?_, fun i c hc => ?_, fun w e s t he h => ?_⟩
  · obtain ⟨c, hc, rfl⟩ | ⟨-, u, rfl⟩ := raised_or_completed h
    · exact .inr ⟨c, mem_raisableCodes_of_firstFailure hc, statusCode_raisedWith s c⟩
    · exact .inl (statusCode_completed u)
  · obtain ⟨j, hj, hfail⟩ := exists_firstFailure_fullState i c hc
    exact ⟨j, fullState, _, fieldOpc_encode_congr hj, fullState_wf, exec_of_firstFailure hfail, statusCode_raisedWith _ c⟩
  · obtain rfl := raise_next.mp ((executeWord_of_error he s).symm.trans h)
    exact statusCode_raisedWith s .illegalCommand

/-! ### The order of checks (R205) -/

/-- Of two checks the second gives the code exactly when the first passes and it fails. -/
theorem statusCode_eq_iff_second_fails {p q : Prop} [Decidable p] [Decidable q] (h : exec i s = .next t)
    (hl : checks i s = [(c, decide p), (d, decide q)]) (hcd : c ≠ d) (hd : d ≠ .ok) :
    statusCode t.status = statusCodeBits d ↔ ¬p ∧ q := by
  rw [statusCode_eq_iff_firstFailure h hd, firstFailure, hl]
  simp [hcd]

/-- Settles O37: the later code is that of the second of the command's two checks. -/
theorem firstFailingCheckGivesCode : Obligations.FirstFailingCheckGivesCode := by
  refine ⟨fun s t b w h => ?_, fun s t b src h => ?_, fun s t b h => ?_, fun s t hnb h => ?_, fun s t harg _ h => ?_⟩
  · refine (statusCode_eq_iff_second_fails h rfl (by decide) (by decide)).trans ?_
    omega
  · refine (statusCode_eq_iff_second_fails h rfl (by decide) (by decide)).trans ?_
    omega
  · refine (statusCode_eq_iff_second_fails h rfl (by decide) (by decide)).trans ?_
    omega
  · have hfail : firstFailure (.bbAppend 9 40) s = some .invalidArgument := by simp [firstFailure, checks, hnb]
    exact (statusCode_eq_iff_firstFailure h (by decide)).mpr hfail
  · have hfail : firstFailure (.bbAppend 0 8) s = some .invalidArgument := by simp [firstFailure, checks, harg]
    exact (statusCode_eq_iff_firstFailure h (by decide)).mpr hfail

/-! ### Raising again (R206) -/

/-- Settles O38: the same check fails in the state left, and raising the same code there changes nothing. -/
theorem repeatedRaiseIsTheSame : Obligations.RepeatedRaiseIsTheSame := by
  intro w s t h hne
  cases hd : decode w with
  | error e =>
    rw [executeWord_of_error hd] at h ⊢
    obtain rfl := raise_next.mp h
    exact ⟨by rw [raise, raisedWith_raisedWith], statusErr_raisedWith s _⟩
  | ok i =>
    rw [executeWord_of_decode hd] at h ⊢
    obtain ⟨c, hc, rfl⟩ | ⟨-, u, rfl⟩ := raised_or_completed h
    · have hagain : firstFailure i (s.raisedWith c) = some c := by
        rwa [firstFailure, checks_raisedWith]
      exact ⟨by rw [exec_of_firstFailure hagain, raisedWith_raisedWith], statusErr_raisedWith s c⟩
    · exact absurd (statusCode_completed u) hne

end Sys2Proof.Machine
end

section
/-! SUPPORT. O39: the model's own mark of a raise. -/

namespace Sys2Proof.Machine

variable {s t u : State} {i : Instr}

/-- No command touches the mark before `STATUS.CODE <- OK`: only a raise writes it. -/
theorem Effect.raised_eq (h : Effect s i u) : u.raised = s.raised := by cases h <;> rfl

/-- A step that raises sets the mark, and every other step, reset included, keeps it. -/
theorem raised_of_step (h : step s = .next t) (hs : s.raised = true) : t.raised = true := by
  cases stepEffect_of_step h with
  | reset next => exact hs
  | raised next ne => exact raisedWith_raised _ _
  | completed next cmd eff => exact eff.raised_eq.trans hs
  | port argWrite => exact hs

/-- An executed word that leaves the mark clear has not raised, so it has completed with CODE OK (R204). -/
theorem statusCode_eq_zero_of_not_raised {w : Word} (h : executeWord w s = .next t) (ht : t.raised = false) :
    statusCode t.status = 0 := by
  obtain ⟨c, -, rfl⟩ | ⟨i, u, -, -, rfl⟩ := executeWord_cases h
  · simp at ht
  · exact statusCode_completed u

/-- Settles O39: a raise alone writes the mark, and an executed word either raises or completes. -/
theorem unraisedMarkMeansNoRaise : Obligations.UnraisedMarkMeansNoRaise := by
  intro s t h
  refine ⟨raised_of_step h, fun ht w hw => ?_⟩
  obtain ⟨rest, hstep⟩ := step_of_cmdWrite hw
  exact statusCode_eq_zero_of_not_raised (hstep.symm.trans h) ht

end Sys2Proof.Machine
end
